-- ==== Sys2Proof/Word.lean ====
section
/-! DEFINITION. The word types of the M06 block: 32-bit registers and addresses, 16-bit counts, bytes
(`00_scope.md` section 5, types `u8`, `u16`, `u32`). -/

namespace Sys2Proof

/-- `u32`: a host-port register, a command word, a memory address. -/
abbrev Word := BitVec 32

/-- `u16`: a fragment count, a length, an index. -/
abbrev Half := BitVec 16

/-- `u8`: one byte of `MEM`, one byte on the serial line. -/
abbrev Byte := BitVec 8

end Sys2Proof
end

