-- ==== Sys2Proof/Config.lean ====
section
/-! DEFINITION. The implementation parameters of rule R7 (`00_scope.md`) and the free values `any(u32)`. -/

namespace Sys2Proof

/-- The six parameters of rule R7. They are fixed for a machine: no step changes them (log 7). -/
structure Config where
  /-- `TICK_PERIOD_NS`: one full period of the tick counter, in nanoseconds. -/
  tickPeriodNs : Nat
  /-- `TICK_RES_NS`: resolution of `TICK_COUNT`. -/
  tickResNs : Nat
  /-- `HR_RES_NS`: resolution of `TICK_HRCOUNT`, and the counter's quantum. -/
  hrResNs : Nat
  /-- `HAS_BREAK`: whether the serial engine ever reports a line break. -/
  hasBreak : Bool
  /-- `DEBOUNCE_PRESCALER`: no rule reads it; `none` is the table's "unset". -/
  debouncePrescaler : Option Nat
  /-- `REG_BASE`: no rule reads it; `none` is the table's "unset". -/
  regBase : Option Nat
  deriving DecidableEq, Repr

/-- Nanoseconds in a second (`00_scope.md` section 5). -/
abbrev nsPerSec : Nat := 1000000000

/-- The constraints that rule R7 puts on the parameters. -/
abbrev Config.wf (c : Config) : Prop :=
  1 ≤ c.tickPeriodNs ∧ c.tickPeriodNs ≤ 2 ^ 32 * nsPerSec ∧ c.tickResNs ∣ c.tickPeriodNs ∧
    1 ≤ c.tickResNs ∧ c.hrResNs ∣ c.tickResNs ∧ 1 ≤ c.hrResNs

/-- The reference configuration, last column of R7's table. DESIGN CHOICE (log 7) as the value at reset. -/
def Config.reference : Config where
  tickPeriodNs := 2 ^ 32 * nsPerSec
  tickResNs := 1000000
  hrResNs := 1000
  hasBreak := true
  debouncePrescaler := none
  regBase := none

/-- `any(u32)` (`00_scope.md` section 5): the n-th value the environment draws under no law (log 8).
It has no body, so nothing can be proved of its values. -/
opaque Config.freeWord : Nat → Word

end Sys2Proof
end

