-- ==== Sys2Proof/Machine/State.lean ====
section
/-! DEFINITION. The state of the machine (`10_state.md` rules R10 to R32), the steps the host and the environment
can take, the reasons a step can stop, and power-on reset (R180). -/

namespace Sys2Proof.Machine

/-- `PHASE` (R13). -/
inductive Phase where
  /-- `INIT` has not been issued since reset. -/
  | reset
  /-- `INIT` waits on hardware readiness; the host is held. -/
  | initWait
  /-- Initialization finished. -/
  | run
  deriving DecidableEq, Repr

/-- The status codes of `ST` by name (R14, R161). -/
inductive Status where
  | ok
  | busy
  | illegal
  | seq
  | badarg
  deriving DecidableEq, Repr

/-- `BTN`, the button's logical state (R17). -/
inductive Button where
  | released
  | pressed
  deriving DecidableEq, Repr

/-- `MODE`, the BlinkMode (R18). -/
inductive BlinkMode where
  | off
  | slow
  | medium
  | fast
  | on
  deriving DecidableEq, Repr

/-- The eight host-port registers (R10). -/
inductive PortReg where
  | cmd
  | st
  | a0
  | a1
  | a2
  | a3
  | r0
  | r1
  deriving DecidableEq, Repr

/-- The access widths `n` in 1, 2, 4 of `MemRead` and `MemWrite` (R42, R43). -/
inductive AccessSize where
  | one
  | two
  | four
  deriving DecidableEq, Repr

/-- A step of the HOST agent: on the register port (R11) or its own access to `MEM` (R50). -/
inductive HostStep where
  /-- `RD n`. -/
  | rd (n : Fin 8)
  /-- `WR n, v`; `WR 0, w` executes the command whose word is `w`. -/
  | wr (n : Fin 8) (v : Word)
  /-- `LOAD(addr, n)`. -/
  | load (addr : Word) (size : AccessSize)
  /-- `STORE(addr, n, v)`. -/
  | store (addr : Word) (size : AccessSize) (v : Word)
  deriving DecidableEq, Repr

/-- The steps of the environment agents and the block's one internal step (R31). -/
inductive Event where
  | tickAdv
  | edge (lvl : Bool)
  | txStep
  | rxByte (b : Byte)
  | rxDone
  | rxBreak
  | bcntSet (v : Word)
  | hwrdySet (v : Bool)
  | initDone
  deriving DecidableEq, Repr

/-- Whose turn it is (R8). Power-on (R180) is no agent's step but the supply's (log 12). -/
inductive Turn where
  | host
  | event (e : Event)
  | powerOn
  deriving DecidableEq, Repr

/-- `MEM` (R25): the bytes that differ from what an unlisted address reads as, by rising address. -/
abbrev Memory := List Host.Cell

/-- Every piece of state of R32's table, then the model's own five fields. -/
structure State where
  /-- Operand registers `A0`..`A3` (R10). -/
  a0 : Word
  a1 : Word
  a2 : Word
  a3 : Word
  /-- Result registers `R0`, `R1` (R10). -/
  r0 : Word
  r1 : Word
  /-- Status register `ST` (R14). -/
  st : Word
  phase : Phase
  /-- `TIME_NS`, the tick counter in nanoseconds (R15). -/
  timeNs : Nat
  /-- `EVT`: bit 0 `PRESS`, bit 1 `RELEASE` (R16). -/
  evt : BitVec 2
  btn : Button
  mode : BlinkMode
  /-- The level on the indicator pin (R19). -/
  led : Bool
  /-- Transmit side (R21, R22). -/
  txBusy : Bool
  txFaddr : Word
  txNfrag : Half
  txFi : Half
  txBi : Half
  /-- Receive side (R23, R24). -/
  rxBusy : Bool
  rxDaddr : Word
  rxBuf : Word
  rxMax : Half
  rxCnt : Half
  /-- Data memory, shared by host and block (R25). -/
  mem : Memory
  /-- The bytes placed on the serial line, oldest first (R26). -/
  wire : List Byte
  /-- Inputs (R30). -/
  hwReady : Bool
  bcntIn : Word
  /-- The MODEL's own: the parameters of R7, which no step writes (log 7). -/
  cfg : Config
  /-- The MODEL's own: how many free values have been drawn (log 8). -/
  draws : Nat
  /-- The MODEL's own: the host's steps not yet taken, in the host's order (log 1). -/
  hostTodo : List HostStep
  /-- The MODEL's own: whose turn comes next, in order (log 1). -/
  schedule : List Turn
  /-- The MODEL's own: the values `RD` and `LOAD` returned to the host, oldest first (log 9). -/
  hostReads : List Word
  deriving DecidableEq, Repr

/-- Why the machine stops. The block itself never faults: commands report statuses (R160), events cannot fault
(R167), memory accesses cannot fault (R56). -/
inductive Fault where
  /-- Raised by a host `LOAD` or `STORE` whose address is no multiple of its size. Rule R50 puts such an access
  outside the block: "what a host does on a misaligned access is the host's affair". Safe: the model stops (log 10). -/
  | hostAccessMisaligned
  deriving DecidableEq, Repr

/-- Why an instruction has no meaning. -/
inductive Refusal where
  /-- Raised by an arm of `exec` that has no meaning yet. Safe. No arm uses it: every command is modelled. -/
  | notModelled (mnemonic : String)
  deriving DecidableEq, Repr

/-- Power-on reset (R180, R32's reset column). `A0`..`A3`, `R0`, `R1` (log 3), the descriptor latches (log 4), the
inputs (log 6) and the parameters (log 7) are DESIGN CHOICES: the spec gives no value. Nothing is listed in memory
(log 5), nothing is scheduled and the host has nothing to do (log 11). -/
def State.reset : State where
  a0 := 0#32
  a1 := 0#32
  a2 := 0#32
  a3 := 0#32
  r0 := 0#32
  r1 := 0#32
  st := 0#32
  phase := .reset
  timeNs := 0
  evt := 0#2
  btn := .released
  mode := .off
  led := false
  txBusy := false
  txFaddr := 0#32
  txNfrag := 0#16
  txFi := 0#16
  txBi := 0#16
  rxBusy := false
  rxDaddr := 0#32
  rxBuf := 0#32
  rxMax := 0#16
  rxCnt := 0#16
  mem := []
  wire := []
  hwReady := false
  bcntIn := 0#32
  cfg := Config.reference
  draws := 0
  hostTodo := []
  schedule := []
  hostReads := []

end Sys2Proof.Machine
end

