-- ==== Sys2Proof/Machine/Flags.lean ====
section
/-! DEFINITION. The codes of the block's flag-like state: status codes (R14, R161), event bits (R16), Boolean
results (R64), mode numbers (R18), the completion word (R47). -/

namespace Sys2Proof.Machine

/-- The code a status has in `ST` (R161). -/
def statusCode (x : Status) : Word :=
  match x with
  | .ok => 0#32
  | .busy => 1#32
  | .illegal => 2#32
  | .seq => 3#32
  | .badarg => 4#32

/-- A Boolean result in a register: 1 for true, 0 for false (R64). -/
def boolWord (b : Bool) : Word := if b then 1#32 else 0#32

/-- The one bit an `EDGE` step sets in `EVT`: `PRESS` is bit 0, `RELEASE` is bit 1 (R16, R100). -/
def edgeBit (lvl : Bool) : BitVec 2 := if lvl then 1#2 else 2#2

/-- The button state that a debounced level means (R17, R100). -/
def buttonOf (lvl : Bool) : Button := if lvl then .pressed else .released

/-- The mode a 3-bit number names, if any (R18, R61). -/
def blinkModeOf (m : BitVec 3) : Option BlinkMode :=
  match m.toNat with
  | 0 => some .off
  | 1 => some .slow
  | 2 => some .medium
  | 3 => some .fast
  | 4 => some .on
  | _ => none

/-- The number of a mode (R18). -/
def modeNumber (m : BlinkMode) : Word :=
  match m with
  | .off => 0#32
  | .slow => 1#32
  | .medium => 2#32
  | .fast => 3#32
  | .on => 4#32

/-- `completion_state` (R47). -/
inductive Completion where
  | none
  | data (length : Half)
  | lineBreak
  deriving DecidableEq, Repr

/-- The completion word (R47): kind in bits 1..0, length in bits 31..16, bits 15..2 zero. -/
def completionWord (c : Completion) : Word :=
  match c with
  | .none => 0#32
  | .data n => (n.setWidth 32 <<< 16) ||| 1#32
  | .lineBreak => 2#32

/-- How the host decodes a loaded completion word (R137); the kind 3 is never written (R47). -/
def completionOf (v : Word) : Option Completion :=
  match (v.extractLsb' 0 2).toNat with
  | 0 => some .none
  | 1 => some (.data (v.extractLsb' 16 16))
  | 2 => some .lineBreak
  | _ => none

end Sys2Proof.Machine
end

