-- ==== Sys2Proof/Machine/Ops.lean ====
section
/-! DEFINITION. The named operations over memory (`20_memory.md` rules R41 to R44) and registers, `raise` (R160),
the phase check of R63, and the drawing of free values. -/

namespace Sys2Proof.Machine

/-! ## Memory -/

/-- What an address that is not listed reads as. DESIGN CHOICE (log 5): the spec leaves `MEM` at reset unspecified. -/
def unlistedByte : Byte := 0#8

/-- The list that holds byte `b` at `a`: nothing where `b` is what an unlisted address reads as. -/
def cellOf (a : Nat) (b : Byte) : Memory := if b = unlistedByte then [] else [(a, b)]

/-- One byte of `MEM`. -/
def readByte (m : Memory) (a : Nat) : Byte :=
  match m with
  | [] => unlistedByte
  | c :: rest => if c.1 = a then c.2 else readByte rest a

/-- `MEM[a] <- b`, keeping the canonical form. -/
def writeByte (m : Memory) (a : Nat) (b : Byte) : Memory :=
  match m with
  | [] => cellOf a b
  | c :: rest =>
    if a < c.1 then cellOf a b ++ c :: rest
    else if c.1 = a then cellOf a b ++ rest
    else c :: writeByte rest a b

/-- `n` bytes from address `a` upward as a little-endian number; addresses wrap modulo 2^32 (R41, R42, R44). -/
def readLE (m : Memory) (a : Word) (n : Nat) : Nat :=
  match n with
  | 0 => 0
  | k + 1 => (readByte m a.toNat).toNat + 256 * readLE m (a + 1#32) k

/-- The low `8n` bits of `v` to `n` bytes from address `a` upward, little-endian, addresses modulo 2^32 (R43). -/
def writeLE (m : Memory) (a : Word) (n : Nat) (v : Nat) : Memory :=
  match n with
  | 0 => m
  | k + 1 => writeLE (writeByte m a.toNat (BitVec.ofNat 8 v)) (a + 1#32) k (v / 256)

/-- How many bytes an access moves (R42). -/
def sizeBytes (n : AccessSize) : Nat :=
  match n with
  | .one => 1
  | .two => 2
  | .four => 4

/-- `MemRead(addr, n)`, zero-extended to a word (R42). -/
def memRead (m : Memory) (a : Word) (n : AccessSize) : Word := BitVec.ofNat 32 (readLE m a (sizeBytes n))

/-- `MemRead(addr, 2)` as a `u16`, the width of the length fields (R45, R46). -/
def memReadHalf (m : Memory) (a : Word) : Half := BitVec.ofNat 16 (readLE m a 2)

/-- `MemWrite(addr, n, v)` (R43). -/
def memWrite (m : Memory) (a : Word) (n : AccessSize) (v : Word) : Memory := writeLE m a (sizeBytes n) v.toNat

/-- Bits 1..0 of a list or descriptor address are 0 (R48). -/
def wordAligned (a : Word) : Bool := decide (a.toNat % 4 = 0)

/-- A host access is at a multiple of its size (R50). -/
def hostAligned (a : Word) (n : AccessSize) : Bool := decide (a.toNat % sizeBytes n = 0)

/-- The addresses of `n` bytes from `a` upward (R44). -/
def byteAddrs (a : Word) (n : Nat) : List Nat :=
  match n with
  | 0 => []
  | k + 1 => a.toNat :: byteAddrs (a + 1#32) k

/-! ## Registers -/

/-- `ST <- w`. -/
def State.setSt (s : State) (w : Word) : State := { s with st := w }

/-- `R[0] <- w`. -/
def State.setR0 (s : State) (w : Word) : State := { s with r0 := w }

/-- `R[0] <- w ; R[1] <- v`. -/
def State.setResults (s : State) (w v : Word) : State := { s with r0 := w, r1 := v }

/-- `MEM <- m`. -/
def State.setMem (s : State) (m : Memory) : State := { s with mem := m }

/-- The register that has a number (R10). -/
def portReg (n : Fin 8) : PortReg :=
  match n with
  | 0 => .cmd
  | 1 => .st
  | 2 => .a0
  | 3 => .a1
  | 4 => .a2
  | 5 => .a3
  | 6 => .r0
  | 7 => .r1

/-- What `RD` of a register returns (R11). `CMD` returns 0. -/
def readPort (s : State) (r : PortReg) : Word :=
  match r with
  | .cmd => 0#32
  | .st => s.st
  | .a0 => s.a0
  | .a1 => s.a1
  | .a2 => s.a2
  | .a3 => s.a3
  | .r0 => s.r0
  | .r1 => s.r1

/-- `WR` of a register other than `CMD` (R11): `ST`, `R0` and `R1` ignore host writes. -/
def writePort (s : State) (r : PortReg) (v : Word) : State :=
  match r with
  | .a0 => { s with a0 := v }
  | .a1 => { s with a1 := v }
  | .a2 => { s with a2 := v }
  | .a3 => { s with a3 := v }
  | .cmd | .st | .r0 | .r1 => s

/-- `LED_OUT` equals `LED` at all times (R29). -/
def State.ledOut (s : State) : Bool := s.led

/-! ## Taking an exception -/

/-- `raise X` (R160): `ST <- code(X)` and the command ends. It saves nothing, changes no mode and goes to no
handler, so there is no return from it (R167). -/
def raise (x : Status) (s : State) : State := s.setSt (statusCode x)

/-- `ST <- OK`, the end of a command that did what its rule says (R161). -/
def finish (s : State) : State := s.setSt (statusCode .ok)

/-- The phase check of R63: every command but `INIT` raises `SEQ` unless `PHASE = RUN`. -/
def whenRun (s : State) (body : State → State) : Host.Outcome State Fault Refusal :=
  if s.phase = .run then .next (body s) else .next (raise .seq s)

/-! ## Free values -/

/-- `R[0] <- any(u32) ; R[1] <- any(u32)`: two fresh draws (`00_scope.md` section 5, R83). -/
def drawResults (s : State) : State :=
  { s with r0 := Config.freeWord s.draws, r1 := Config.freeWord (s.draws + 1), draws := s.draws + 2 }

end Sys2Proof.Machine
end

