-- ==== Sys2Proof/Machine/AsyncSerial.lean ====
section
/-! DEFINITION. AsyncSerialChannel (`43_asyncserial.md`): six commands and the four events of the serial engine. -/

namespace Sys2Proof.Machine

/-! ## Transmit side -/

/-- The address of the fragment entry being sent, `(TX_FADDR + 8 * TX_FI) mod 2^32` (R128). -/
def fragAddr (s : State) : Word := s.txFaddr + 8#32 * s.txFi.setWidth 32

/-- The entry's `buf` field (R45). -/
def fragBuf (s : State) : Word := memRead s.mem (fragAddr s) .four

/-- The entry's `length` field (R45). -/
def fragLen (s : State) : Half := memReadHalf s.mem (fragAddr s + 4#32)

/-- The address of the next byte to send, `(buf + TX_BI) mod 2^32` (R128). -/
def txByteAddr (s : State) : Word := fragBuf s + s.txBi.setWidth 32

/-- Event `TX_STEP` (R128): complete, move to the next fragment, or send one byte. -/
def txStep (s : State) : State :=
  if s.txFi = s.txNfrag then { s with txBusy := false }
  else if (fragLen s).toNat ≤ s.txBi.toNat then { s with txFi := s.txFi + 1#16, txBi := 0#16 }
  else { s with wire := s.wire ++ [readByte s.mem (txByteAddr s).toNat], txBi := s.txBi + 1#16 }

/-- The state changes of an accepted `TX_ENQUEUE` (R125). -/
def latchTx (n : Half) (s : State) : State :=
  { s with txFaddr := s.a0, txNfrag := n, txFi := 0#16, txBi := 0#16, txBusy := true }

/-- `TX_ENQUEUE nfrags` (R125): `BADARG` before `BUSY` (R163); memory is not accessed. -/
def execTxEnqueue (n : Half) (s : State) : Host.Outcome State Fault Refusal :=
  whenRun s fun s =>
    if wordAligned s.a0 = false then raise .badarg s
    else if s.txBusy then raise .busy (s.setR0 (boolWord false))
    else finish ((latchTx n s).setR0 (boolWord true))

/-- `TX_ABORT` (R126). -/
def execTxAbort (s : State) : Host.Outcome State Fault Refusal :=
  whenRun s fun s => finish { s with txBusy := false }

/-- `TX_QUERY` (R127). -/
def execTxQuery (s : State) : Host.Outcome State Fault Refusal :=
  whenRun s fun s => finish (s.setR0 (boolWord s.txBusy))

/-! ## Receive side -/

/-- The address of a descriptor's completion word, `(d + 8) mod 2^32` (R46). -/
def completionAddr (d : Word) : Word := d + 8#32

/-- The address the next received byte goes to, `(RX_BUF + RX_CNT) mod 2^32` (R134). -/
def rxByteAddr (s : State) : Word := s.rxBuf + s.rxCnt.setWidth 32

/-- The state changes of an accepted `RX_ENQUEUE` (R131): the descriptor is latched and `NONE` is written into it. -/
def latchRx (s : State) : State :=
  { s with
    rxDaddr := s.a0
    rxBuf := memRead s.mem s.a0 .four
    rxMax := memReadHalf s.mem (s.a0 + 4#32)
    rxCnt := 0#16
    mem := memWrite s.mem (completionAddr s.a0) .four (completionWord .none)
    rxBusy := true }

/-- `RX_ENQUEUE` (R131): `BADARG` before `BUSY` (R163). -/
def execRxEnqueue (s : State) : Host.Outcome State Fault Refusal :=
  whenRun s fun s =>
    if wordAligned s.a0 = false then raise .badarg s
    else if s.rxBusy then raise .busy (s.setR0 (boolWord false))
    else finish ((latchRx s).setR0 (boolWord true))

/-- `RX_ABORT` (R132): the completion word and the buffer are left alone. -/
def execRxAbort (s : State) : Host.Outcome State Fault Refusal :=
  whenRun s fun s => finish { s with rxBusy := false }

/-- `RX_QUERY` (R133). -/
def execRxQuery (s : State) : Host.Outcome State Fault Refusal :=
  whenRun s fun s => finish (s.setR0 (boolWord s.rxBusy))

/-- Event `RX_BYTE(b)` (R134). -/
def rxByte (b : Byte) (s : State) : State :=
  { s with mem := writeByte s.mem (rxByteAddr s).toNat b, rxCnt := s.rxCnt + 1#16 }

/-- The end of a reception: one 4-byte write of the completion word, and the channel is idle (R135, R136). -/
def completeRx (c : Completion) (s : State) : State :=
  { s with mem := memWrite s.mem (completionAddr s.rxDaddr) .four (completionWord c), rxBusy := false }

/-- Event `RX_DONE` (R135). -/
def rxDone (s : State) : State := completeRx (.data s.rxCnt) s

/-- Event `RX_BREAK` (R136). -/
def rxBreak (s : State) : State := completeRx .lineBreak s

end Sys2Proof.Machine
end

