-- ==== Sys2Proof/Machine/BlinkSequencer.lean ====
section
/-! DEFINITION. BlinkSequencer (`42_blinksequencer.md`): the comparator, its three commands and the counter input. -/

namespace Sys2Proof.Machine

/-- Column `THR` of R20, the floor of `period_ticks * duty_fraction`; `OFF` and `ON` have no entry. -/
def blinkThreshold (m : BlinkMode) : Option Nat :=
  match m with
  | .off => none
  | .slow => some 21094
  | .medium => some 9375
  | .fast => some 3516
  | .on => none

/-- `blink_out` (R113): forced low and high in `OFF` and `ON`, else strictly above the threshold. -/
def blinkOut (m : BlinkMode) (c : Word) : Bool :=
  match blinkThreshold m with
  | some thr => decide (thr < c.toNat)
  | none => decide (m = .on)

/-- Event `BCNT_SET(v)` (R115). -/
def bcntSet (v : Word) (s : State) : State := { s with bcntIn := v }

/-- `LED <- blink_out(MODE, BCNT_IN)`. -/
def recomputeLed (s : State) : State := { s with led := blinkOut s.mode s.bcntIn }

/-- `SET_MODE mode` (R110): the new mode, and `LED` recomputed with it in the same step. A number that names no mode
raises `ILLEGAL`, which R63 checks before the phase (log 15). -/
def execSetMode (m : BitVec 3) (s : State) : Host.Outcome State Fault Refusal :=
  match blinkModeOf m with
  | some mode => whenRun s fun s => finish (recomputeLed { s with mode := mode })
  | none => .next (raise .illegal s)

/-- `GET_MODE` (R111). -/
def execGetMode (s : State) : Host.Outcome State Fault Refusal :=
  whenRun s fun s => finish (s.setR0 (modeNumber s.mode))

/-- `BLINK_UPDATE` (R112). -/
def execBlinkUpdate (s : State) : Host.Outcome State Fault Refusal :=
  whenRun s fun s => finish (recomputeLed s)

end Sys2Proof.Machine
end

