-- ==== Sys2Proof/Machine/EventCapture.lean ====
section
/-! DEFINITION. EventCapture (`41_eventcapture.md`): the edge event and `GET_EVENT`. -/

namespace Sys2Proof.Machine

/-- Event `EDGE(lvl)` (R100): `BTN` is overwritten, `EVT` accumulates (`90_conflicts.md` C1). -/
def edge (lvl : Bool) (s : State) : State := { s with btn := buttonOf lvl, evt := s.evt ||| edgeBit lvl }

/-- `GET_EVENT` (R102): the atomic read-and-clear of `EVT`. -/
def execGetEvent (s : State) : Host.Outcome State Fault Refusal :=
  whenRun s fun s => finish { s with r0 := s.evt.setWidth 32, evt := 0#2 }

end Sys2Proof.Machine
end

