-- ==== Sys2Proof/Machine/Operands.lean ====
section
/-! DEFINITION. Tick operands and results (R64) and the helper functions on ticks (`00_scope.md` section 5). -/

namespace Sys2Proof.Machine

/-- A Tick, `{sec: u32, nsec: u32}`; a TickDelta has the same layout (R83). -/
structure Tick where
  sec : Word
  nsec : Word
  deriving DecidableEq, Repr

/-- `lhs = {sec = A[0], nsec = A[1]}` (R64). -/
def lhsTick (s : State) : Tick := ⟨s.a0, s.a1⟩

/-- `rhs = {sec = A[2], nsec = A[3]}` (R64). -/
def rhsTick (s : State) : Tick := ⟨s.a2, s.a3⟩

/-- `ns_of`, in the natural numbers. -/
def nsOf (t : Tick) : Nat := t.sec.toNat * nsPerSec + t.nsec.toNat

/-- `tick_of`, meant for `n < 2^32 * 10^9`, where the seconds fit a `u32` (log 19). -/
def tickOf (n : Nat) : Tick := ⟨BitVec.ofNat 32 (n / nsPerSec), BitVec.ofNat 32 (n % nsPerSec)⟩

/-- `valid`, the Tick invariant. -/
def tickValid (t : Tick) : Bool := decide (t.nsec.toNat ≤ 999999999)

/-- `floor_to(n, q)`. -/
def floorTo (n q : Nat) : Nat := n / q * q

/-- `R[0] <- t.sec ; R[1] <- t.nsec` (R64). -/
def writeTick (s : State) (t : Tick) : State := s.setResults t.sec t.nsec

end Sys2Proof.Machine
end

