-- ==== Sys2Proof/Machine/TickClock.lean ====
section
/-! DEFINITION. TickClock (`40_tickclock.md`): the counter event and the four tick commands. -/

namespace Sys2Proof.Machine

/-- Event `TICK_ADV` (R80). -/
def tickAdv (s : State) : State := { s with timeNs := (s.timeNs + s.cfg.hrResNs) % s.cfg.tickPeriodNs }

/-- The sample that `TICK_COUNT` returns and `SERVICE` reads as "the current tick" (R81, R153). -/
def currentTick (s : State) : Tick := tickOf (floorTo s.timeNs s.cfg.tickResNs)

/-- `lhs - rhs` in nanoseconds with one wraparound corrected, as a mathematical integer (R83). -/
def deltaNs (l r : Tick) (period : Nat) : Int :=
  if (nsOf l : Int) - nsOf r < 0 then (nsOf l : Int) - nsOf r + period else (nsOf l : Int) - nsOf r

/-- The TickDelta of R83, or `none` in the two cases where the result is `any(u32)` (R86 (2), (3)). `lhs` earlier by
exactly a period is one of them by the words of R86 and U2, though R83's pseudocode gives 0 there (log 20). -/
def tickDelta (l r : Tick) (period : Nat) : Option Tick :=
  if tickValid l = true ∧ tickValid r = true ∧ (nsOf r ≤ nsOf l ∨ nsOf r < nsOf l + period) then
    some (tickOf (deltaNs l r period).toNat)
  else none

/-- The three-way comparison of R84: seconds first, then nanoseconds, unsigned, no wraparound correction. -/
def tickCompare (l r : Tick) : Int :=
  if l.sec.toNat < r.sec.toNat then -1
  else if r.sec.toNat < l.sec.toNat then 1
  else if l.nsec.toNat < r.nsec.toNat then -1
  else if r.nsec.toNat < l.nsec.toNat then 1
  else 0

/-- `TICK_COUNT` (R81). -/
def execTickCount (s : State) : Host.Outcome State Fault Refusal :=
  whenRun s fun s => finish (writeTick s (currentTick s))

/-- `TICK_HRCOUNT` (R82). -/
def execTickHrcount (s : State) : Host.Outcome State Fault Refusal :=
  whenRun s fun s => finish (writeTick s (tickOf s.timeNs))

/-- `TICK_DELTA` (R83). Outside its precondition the results are free values and the status is still `OK` (R86). -/
def execTickDelta (s : State) : Host.Outcome State Fault Refusal :=
  whenRun s fun s =>
    finish (match tickDelta (lhsTick s) (rhsTick s) s.cfg.tickPeriodNs with
      | some t => writeTick s t
      | none => drawResults s)

/-- `TICK_COMPARE` (R84): `R[0] <- sext_32(c)`. -/
def execTickCompare (s : State) : Host.Outcome State Fault Refusal :=
  whenRun s fun s => finish (s.setR0 (BitVec.ofInt 32 (tickCompare (lhsTick s) (rhsTick s))))

end Sys2Proof.Machine
end

