-- ==== Sys2Proof/Machine/InitService.lean ====
section
/-! DEFINITION. Initialization and loop service (`44_init_service.md`), and power-on reset as a turn (R180). -/

namespace Sys2Proof.Machine

/-- `INIT` (R150). `ST` is not written at issue; `INIT_DONE` writes it. -/
def execInit (s : State) : Host.Outcome State Fault Refusal :=
  if s.phase = .reset then .next { s with phase := .initWait } else .next (raise .seq s)

/-- `SERVICE` (R153): it reads the current tick (`currentTick`), compares it with nothing, and changes only `ST`. -/
def execService (s : State) : Host.Outcome State Fault Refusal :=
  whenRun s fun s => finish s

/-- Step `INIT_DONE` (R151). -/
def initDone (s : State) : State :=
  finish { s with
    timeNs := 0
    evt := 0#2
    btn := .released
    mode := .off
    led := false
    txBusy := false
    rxBusy := false
    phase := .run }

/-- Event `HWRDY_SET(v)` (R152). -/
def hwrdySet (v : Bool) (s : State) : State := { s with hwReady := v }

/-- Power-on reset during a run (R180): the block's state and `MEM` at their reset values, "the inputs `HW_READY` and
`BCNT_IN` whatever the environment holds". What is not the block's stays: the parameters, the count of draws, the
host's remaining steps and its record, the schedule (log 12). -/
def powerOn (s : State) : State :=
  { State.reset with
    hwReady := s.hwReady
    bcntIn := s.bcntIn
    cfg := s.cfg
    draws := s.draws
    hostTodo := s.hostTodo
    schedule := s.schedule
    hostReads := s.hostReads }

end Sys2Proof.Machine
end

