-- ==== Sys2Proof/Machine/Environment.lean ====
section
/-! DEFINITION. The environment's steps: when each event is enabled (the table of R31) and what it does. -/

namespace Sys2Proof.Machine

/-- Column "enabled when" of R31. -/
def eventEnabled (e : Event) (s : State) : Bool :=
  match e with
  | .tickAdv => decide (s.phase = .run)
  | .edge _ => decide (s.phase = .run)
  | .txStep => decide (s.phase = .run) && s.txBusy
  | .rxByte _ => decide (s.phase = .run) && s.rxBusy && decide (s.rxCnt.toNat < s.rxMax.toNat)
  | .rxDone => decide (s.phase = .run) && s.rxBusy && decide (1 ≤ s.rxCnt.toNat)
  | .rxBreak => s.cfg.hasBreak && decide (s.phase = .run) && s.rxBusy
  | .bcntSet _ => true
  | .hwrdySet _ => true
  | .initDone => decide (s.phase = .initWait) && s.hwReady

/-- What an enabled event does, by the rule of R31's last column. -/
def eventEffect (e : Event) (s : State) : State :=
  match e with
  | .tickAdv => tickAdv s
  | .edge lvl => edge lvl s
  | .txStep => txStep s
  | .rxByte b => rxByte b s
  | .rxDone => rxDone s
  | .rxBreak => rxBreak s
  | .bcntSet v => bcntSet v s
  | .hwrdySet v => hwrdySet v s
  | .initDone => initDone s

/-- An event's turn: "a disabled event has no effect on the block at all (it is not latched or remembered)" (R31). -/
def takeEvent (e : Event) (s : State) : State := if eventEnabled e s then eventEffect e s else s

end Sys2Proof.Machine
end

