-- ==== Sys2Proof/Syntax.lean ====
section
/-! DEFINITION. The sixteen commands of rule R62 (`30_encoding.md`), one constructor per row of
`opcode_table.json`. -/

namespace Sys2Proof

/-- A command. Only two formats carry a field: `M` the 3-bit `mode`, `N` the 16-bit `nfrags` (R60, R61). -/
inductive Instr where
  /-- `INIT`, word `0x0100_0000` (R150). -/
  | init
  /-- `SERVICE`, word `0x0200_0000` (R153). -/
  | service
  /-- `TICK_COUNT`, word `0x1000_0000` (R81). -/
  | tickCount
  /-- `TICK_HRCOUNT`, word `0x1100_0000` (R82). -/
  | tickHrcount
  /-- `TICK_DELTA`, word `0x1200_0000` (R83). -/
  | tickDelta
  /-- `TICK_COMPARE`, word `0x1300_0000` (R84). -/
  | tickCompare
  /-- `GET_EVENT`, word `0x2000_0000` (R102). -/
  | getEvent
  /-- `SET_MODE mode`, word `0x3000_0000 + mode` (R110); `mode` above 4 is no mode (R61). -/
  | setMode (mode : BitVec 3)
  /-- `GET_MODE`, word `0x3100_0000` (R111). -/
  | getMode
  /-- `BLINK_UPDATE`, word `0x3200_0000` (R112). -/
  | blinkUpdate
  /-- `TX_ENQUEUE nfrags`, word `0x4000_0000 + nfrags` (R125). -/
  | txEnqueue (nfrags : Half)
  /-- `TX_ABORT`, word `0x4100_0000` (R126). -/
  | txAbort
  /-- `TX_QUERY`, word `0x4200_0000` (R127). -/
  | txQuery
  /-- `RX_ENQUEUE`, word `0x4800_0000` (R131). -/
  | rxEnqueue
  /-- `RX_ABORT`, word `0x4900_0000` (R132). -/
  | rxAbort
  /-- `RX_QUERY`, word `0x4A00_0000` (R133). -/
  | rxQuery
  deriving DecidableEq, Repr

end Sys2Proof
end

