-- ==== Sys2Proof/WellFormed.lean ====
section
/-! DEFINITION. Which commands the encoding admits: the mode field names one of the five modes (R61, R63). -/

namespace Sys2Proof

/-- `mode` values 5, 6 and 7 name no mode and make the word illegal (R61). -/
def legalMode (m : BitVec 3) : Bool := decide (m.toNat ≤ 4)

/-- A command some legal word stands for. Every `nfrags`, 0 to 65535, is legal (R61). -/
def Instr.wf (i : Instr) : Bool :=
  match i with
  | .setMode m => legalMode m
  | .init | .service | .tickCount | .tickHrcount | .tickDelta | .tickCompare | .getEvent | .getMode
  | .blinkUpdate | .txEnqueue _ | .txAbort | .txQuery | .rxEnqueue | .rxAbort | .rxQuery => true

end Sys2Proof
end

