-- ==== Sys2Proof/Decode.lean ====
section
/-! DEFINITION. The command decoder and encoder (`30_encoding.md` rules R60 to R63, R65).
A command word is the value written to `CMD`; it is not fetched from memory (R55), so it has no byte order (R41). -/

namespace Sys2Proof

/-- Why a word is reserved (R65). Each of them makes the write raise `ILLEGAL`. -/
inductive DecodeError where
  /-- Bits 31..24 are none of the sixteen opcodes. -/
  | reservedOpcode
  /-- A must-be-0 bit of the opcode's format is set. -/
  | mustBeZeroBits
  /-- `SET_MODE` with mode 5, 6 or 7. -/
  | reservedMode
  deriving DecidableEq, Repr

/-- Bits 31..24 of a command word. -/
def opcodeField (w : Word) : BitVec 8 := w.extractLsb' 24 8

/-- `mode = w[2:0]` (R61). -/
def modeField (w : Word) : BitVec 3 := w.extractLsb' 0 3

/-- `nfrags = w[15:0]` (R61). -/
def nfragsField (w : Word) : Half := w.extractLsb' 0 16

/-- Format `Z`: bits 23..0 must be 0. -/
def decodeZ (w : Word) (i : Instr) : Except DecodeError Instr :=
  if w.extractLsb' 0 24 = 0#24 then .ok i else .error .mustBeZeroBits

/-- Format `M`: bits 23..3 must be 0, and then the mode must be one of the five (R63). -/
def decodeM (w : Word) : Except DecodeError Instr :=
  if w.extractLsb' 3 21 = 0#21 then
    if legalMode (modeField w) then .ok (.setMode (modeField w)) else .error .reservedMode
  else .error .mustBeZeroBits

/-- Format `N`: bits 23..16 must be 0. -/
def decodeN (w : Word) : Except DecodeError Instr :=
  if w.extractLsb' 16 8 = 0#8 then .ok (.txEnqueue (nfragsField w)) else .error .mustBeZeroBits

/-- The decoder: total on words, and dependent on nothing but the word (R63). The formats are told apart by the
opcode alone (R60). -/
def decode (w : Word) : Except DecodeError Instr :=
  match (opcodeField w).toNat with
  | 0x01 => decodeZ w .init
  | 0x02 => decodeZ w .service
  | 0x10 => decodeZ w .tickCount
  | 0x11 => decodeZ w .tickHrcount
  | 0x12 => decodeZ w .tickDelta
  | 0x13 => decodeZ w .tickCompare
  | 0x20 => decodeZ w .getEvent
  | 0x30 => decodeM w
  | 0x31 => decodeZ w .getMode
  | 0x32 => decodeZ w .blinkUpdate
  | 0x40 => decodeN w
  | 0x41 => decodeZ w .txAbort
  | 0x42 => decodeZ w .txQuery
  | 0x48 => decodeZ w .rxEnqueue
  | 0x49 => decodeZ w .rxAbort
  | 0x4A => decodeZ w .rxQuery
  | _ => .error .reservedOpcode

/-- Opcodes, column `op` of R62. -/
def opcode (i : Instr) : BitVec 8 :=
  match i with
  | .init => 0x01#8
  | .service => 0x02#8
  | .tickCount => 0x10#8
  | .tickHrcount => 0x11#8
  | .tickDelta => 0x12#8
  | .tickCompare => 0x13#8
  | .getEvent => 0x20#8
  | .setMode _ => 0x30#8
  | .getMode => 0x31#8
  | .blinkUpdate => 0x32#8
  | .txEnqueue _ => 0x40#8
  | .txAbort => 0x41#8
  | .txQuery => 0x42#8
  | .rxEnqueue => 0x48#8
  | .rxAbort => 0x49#8
  | .rxQuery => 0x4A#8

/-- Bits 23..0 of the word: the one field of formats `M` and `N`, else 0. -/
def operandField (i : Instr) : BitVec 24 :=
  match i with
  | .setMode m => m.setWidth 24
  | .txEnqueue n => n.setWidth 24
  | .init | .service | .tickCount | .tickHrcount | .tickDelta | .tickCompare | .getEvent | .getMode
  | .blinkUpdate | .txAbort | .txQuery | .rxEnqueue | .rxAbort | .rxQuery => 0#24

/-- The word of a command (R62): the opcode in bits 31..24 above the operand field. -/
def encode (i : Instr) : Word := ((opcode i).setWidth 32 <<< 24) ||| (operandField i).setWidth 32

/-- The `nbits`-bit number `w`, bit 0 the least significant bit of the command word, as a command word.
Every bit above `nbits` is 0. -/
def tableWord (nbits w : Nat) : Word := BitVec.ofNat 32 (w % 2 ^ nbits)

/-- The command the decoder reads from the table's number `w` of `nbits` bits. -/
def decodeTableWord (nbits w : Nat) : Option Instr :=
  match decode (tableWord nbits w) with
  | .ok i => some i
  | .error _ => none

end Sys2Proof
end

