-- ==== Sys2Proof/Machine/Dispatch.lean ====
section
/-! DEFINITION. One arm per command (R62, last column). -/

namespace Sys2Proof.Machine

def exec (i : Instr) (s : State) : Host.Outcome State Fault Refusal :=
  match i with
  | .init => Sys2Proof.Machine.execInit s
  | .service => Sys2Proof.Machine.execService s
  | .tickCount => Sys2Proof.Machine.execTickCount s
  | .tickHrcount => Sys2Proof.Machine.execTickHrcount s
  | .tickDelta => Sys2Proof.Machine.execTickDelta s
  | .tickCompare => Sys2Proof.Machine.execTickCompare s
  | .getEvent => Sys2Proof.Machine.execGetEvent s
  | .setMode m => Sys2Proof.Machine.execSetMode m s
  | .getMode => Sys2Proof.Machine.execGetMode s
  | .blinkUpdate => Sys2Proof.Machine.execBlinkUpdate s
  | .txEnqueue n => Sys2Proof.Machine.execTxEnqueue n s
  | .txAbort => Sys2Proof.Machine.execTxAbort s
  | .txQuery => Sys2Proof.Machine.execTxQuery s
  | .rxEnqueue => Sys2Proof.Machine.execRxEnqueue s
  | .rxAbort => Sys2Proof.Machine.execRxAbort s
  | .rxQuery => Sys2Proof.Machine.execRxQuery s

end Sys2Proof.Machine
end

