-- ==== Sys2Proof/Machine/HostPort.lean ====
section
/-! DEFINITION. The steps of the HOST agent: the register port (R11), with the issuing of commands (R63), and the
host's own accesses to `MEM` (R50). -/

namespace Sys2Proof.Machine

/-- `WR 0, w` (R63): the command the word stands for, or `ILLEGAL` for a reserved word, in every phase (R65). -/
def issueCommand (w : Word) (s : State) : Host.Outcome State Fault Refusal :=
  match decode w with
  | .ok i => exec i s
  | .error _ => .next (raise .illegal s)

/-- The host is given a value; nothing of the block changes (log 9). -/
def returnToHost (v : Word) (s : State) : State := { s with hostReads := s.hostReads ++ [v] }

/-- One host step (R11, R50). A misaligned `LOAD` or `STORE` is outside the block and stops the model (log 10). -/
def takeHostStep (h : HostStep) (s : State) : Host.Outcome State Fault Refusal :=
  match h with
  | .rd n => .next (returnToHost (readPort s (portReg n)) s)
  | .wr n v => if portReg n = .cmd then issueCommand v s else .next (writePort s (portReg n) v)
  | .load a n =>
    if hostAligned a n then .next (returnToHost (memRead s.mem a n) s) else .fault .hostAccessMisaligned
  | .store a n v =>
    if hostAligned a n then .next (s.setMem (memWrite s.mem a n v)) else .fault .hostAccessMisaligned

/-- The host's turn. In `INIT_WAIT` the host has no enabled step (R11, R13): it is held and keeps its next step
(log 2). A host with nothing to do leaves the machine as it is. -/
def hostTurn (s : State) : Host.Outcome State Fault Refusal :=
  if s.phase = .initWait then .next s
  else
    match s.hostTodo with
    | [] => .next s
    | h :: rest => takeHostStep h { s with hostTodo := rest }

end Sys2Proof.Machine
end

