-- ==== Sys2Proof/Machine/Step.lean ====
section
/-! DEFINITION. The step: the agent whose turn is next moves, atomically (R8). -/

namespace Sys2Proof.Machine

/-- One step. The head of the schedule says who moves; with nothing scheduled nothing moves (log 1). -/
def step (s : State) : Host.Outcome State Fault Refusal :=
  match s.schedule with
  | [] => .next s
  | .host :: rest => hostTurn { s with schedule := rest }
  | .event e :: rest => .next (takeEvent e { s with schedule := rest })
  | .powerOn :: rest => .next (powerOn { s with schedule := rest })

/-- `s` with the command word placed where the next step takes its command from: the host's next step writes it to
`CMD`, and the host is the next to move (log 11). -/
def State.withFetchWord (s : State) (nbits w : Nat) : State :=
  { s with
    hostTodo := .wr 0 (tableWord nbits w) :: s.hostTodo
    schedule := .host :: s.schedule }

end Sys2Proof.Machine
end

