-- ==== Sys2Proof/Safety.lean ====
section
/-! DEFINITION. What counts as a sound state and as a run in progress, in the terms the statements use. -/

namespace Sys2Proof.Machine

/-- The canonical form of memory: addresses strictly rising and below 2^32 (R40), no entry equal to what an unlisted
address reads as. -/
abbrev Memory.wf (m : Memory) : Prop :=
  m.Pairwise (fun c d => c.1 < d.1) ∧ ∀ c ∈ m, c.1 < 2 ^ 32 ∧ c.2 ≠ unlistedByte

/-- `TIME_NS` is below the period and a multiple of `HR_RES_NS` (R15). -/
abbrev State.clockOk (s : State) : Prop := s.timeNs < s.cfg.tickPeriodNs ∧ s.cfg.hrResNs ∣ s.timeNs

/-- `ST` holds one of the five codes, bits 31..3 zero (R14). -/
abbrev State.statusOk (s : State) : Prop := s.st.toNat ≤ 4

/-- The in-flight transmit descriptor: `0 <= TX_FI <= TX_NFRAG` (R22), list 4-byte aligned (R48). -/
abbrev State.txOk (s : State) : Prop :=
  s.txBusy = true → s.txFi.toNat ≤ s.txNfrag.toNat ∧ s.txFaddr.toNat % 4 = 0

/-- The in-flight receive descriptor: `0 <= RX_CNT <= RX_MAX` (R24), descriptor 4-byte aligned (R48). -/
abbrev State.rxOk (s : State) : Prop :=
  s.rxBusy = true → s.rxCnt.toNat ≤ s.rxMax.toNat ∧ s.rxDaddr.toNat % 4 = 0

/-- Every unit at its initial value, as it is before `PHASE = RUN` (R151, R154, R181). -/
abbrev State.unitsIdle (s : State) : Prop :=
  s.timeNs = 0 ∧ s.evt = 0#2 ∧ s.btn = .released ∧ s.mode = .off ∧ s.led = false ∧ s.txBusy = false ∧
    s.rxBusy = false ∧ s.wire = []

/-- The invariant of the machine. -/
abbrev State.Inv (s : State) : Prop :=
  s.cfg.wf ∧ Memory.wf s.mem ∧ s.clockOk ∧ s.statusOk ∧ s.txOk ∧ s.rxOk ∧ (s.phase ≠ .run → s.unitsIdle)

/-- An operation is in flight: "a run is not over" (R28). -/
abbrev State.inFlight (s : State) : Prop := s.txBusy = true ∨ s.rxBusy = true ∨ s.phase = .initWait

/-- The source an event comes from: the agents of R8 other than `HOST`. -/
inductive Agent where
  | tick
  | edge
  | serTx
  | serRx
  | bcnt
  | hwrdy
  | initDone
  deriving DecidableEq, Repr

/-- Column "agent" of R31. -/
def Event.agent (e : Event) : Agent :=
  match e with
  | .tickAdv => .tick
  | .edge _ => .edge
  | .txStep => .serTx
  | .rxByte _ | .rxDone | .rxBreak => .serRx
  | .bcntSet _ => .bcnt
  | .hwrdySet _ => .hwrdy
  | .initDone => .initDone

/-- The byte addresses `TX_STEP` reads in a state (R49). -/
def txReads (s : State) : List Nat :=
  if s.txFi = s.txNfrag then []
  else byteAddrs (fragAddr s) 4 ++ byteAddrs (fragAddr s + 4#32) 2 ++
    (if (fragLen s).toNat ≤ s.txBi.toNat then [] else [(txByteAddr s).toNat])

/-- The byte addresses an enabled event writes in a state (R49). -/
def eventWrites (e : Event) (s : State) : List Nat :=
  match e with
  | .rxByte _ => [(rxByteAddr s).toNat]
  | .rxDone | .rxBreak => byteAddrs (completionAddr s.rxDaddr) 4
  | .tickAdv | .edge _ | .txStep | .bcntSet _ | .hwrdySet _ | .initDone => []

end Sys2Proof.Machine
end

