-- ==== Sys2Proof/Certificates/Slice0/Obligations.lean ====
section
/-! DEFINITION. The statements about the model, for the provers. Each docstring names the rule it formalises.
`next t` is "the command or step completes, in state `t`"; a state written `{ s with … }` says also what is unchanged:
every field not named, memory and special registers included. -/

open Sys2Proof Sys2Proof.Machine

/-! ## Terms the statements use -/

/-- `HOST` moves next, its next step is `h`, and it is not held (R11, R13). -/
abbrev hostIsNext (s : State) (h : HostStep) (todo : List HostStep) (rest : List Turn) : Prop :=
  s.schedule = .host :: rest ∧ s.hostTodo = h :: todo ∧ s.phase ≠ .initWait

/-- The `mask` and `match` columns of R62's sixteen rows. -/
def commandRows : List (Word × Word) :=
  [(0xFFFFFFFF#32, 0x01000000#32), (0xFFFFFFFF#32, 0x02000000#32), (0xFFFFFFFF#32, 0x10000000#32),
   (0xFFFFFFFF#32, 0x11000000#32), (0xFFFFFFFF#32, 0x12000000#32), (0xFFFFFFFF#32, 0x13000000#32),
   (0xFFFFFFFF#32, 0x20000000#32), (0xFFFFFFF8#32, 0x30000000#32), (0xFFFFFFFF#32, 0x31000000#32),
   (0xFFFFFFFF#32, 0x32000000#32), (0xFFFF0000#32, 0x40000000#32), (0xFFFFFFFF#32, 0x41000000#32),
   (0xFFFFFFFF#32, 0x42000000#32), (0xFFFFFFFF#32, 0x48000000#32), (0xFFFFFFFF#32, 0x49000000#32),
   (0xFFFFFFFF#32, 0x4A000000#32)]

/-- A reserved word (R65): it matches no row, or it is `SET_MODE` with mode 5..7. -/
abbrev reservedWord (w : Word) : Prop :=
  (∀ r ∈ commandRows, w &&& r.1 ≠ r.2) ∨ (w &&& 0xFFFFFFF8#32 = 0x30000000#32 ∧ 4 < (w &&& 7#32).toNat)

/-- Column "enabled when" of R31, as propositions. -/
abbrev enabledByTable (e : Event) (s : State) : Prop :=
  match e with
  | .tickAdv | .edge _ => s.phase = .run
  | .txStep => s.phase = .run ∧ s.txBusy = true
  | .rxByte _ => s.phase = .run ∧ s.rxBusy = true ∧ s.rxCnt.toNat < s.rxMax.toNat
  | .rxDone => s.phase = .run ∧ s.rxBusy = true ∧ 1 ≤ s.rxCnt.toNat
  | .rxBreak => s.cfg.hasBreak = true ∧ s.phase = .run ∧ s.rxBusy = true
  | .bcntSet _ | .hwrdySet _ => True
  | .initDone => s.phase = .initWait ∧ s.hwReady = true

/-- The level a mode gives for a counter value, by the exact products of R20: `c > period_ticks * duty_fraction`, both
sides times ten (R113). -/
abbrev levelByRule (m : BlinkMode) (c : Word) : Bool :=
  match m with
  | .off => false
  | .on => true
  | .slow => decide (23438 * 9 < 10 * c.toNat)
  | .medium => decide (11719 * 8 < 10 * c.toNat)
  | .fast => decide (7032 * 5 < 10 * c.toNat)

/-- Nanoseconds of a seconds and nanoseconds register pair. -/
def pairNs (sec nsec : Word) : Nat := sec.toNat * nsPerSec + nsec.toNat

/-- `k` turns of `TICK_ADV`. -/
def afterTicks (k : Nat) (s : State) : State := (takeEvent .tickAdv)^[k] s

/-- The bytes of fragment `i` of the list at `f` (R45). -/
def fragmentBytes (m : Memory) (f : Word) (i : Nat) : List Byte :=
  (List.range (memReadHalf m (f + BitVec.ofNat 32 (8 * i) + 4#32)).toNat).map fun j =>
    readByte m (memRead m (f + BitVec.ofNat 32 (8 * i)) .four + BitVec.ofNat 32 j).toNat

/-- The bytes of the first `n` fragments of the list at `f`, in order (R128). -/
def payload (m : Memory) (f : Word) (n : Nat) : List Byte := (List.range n).flatMap (fragmentBytes m f)

/-! ## Encoding -/

/-- R60, R61, R62: the decoder reads back every well-formed command from its word, fields included. -/
def Obligations.DecodeOfEncodeIsTheCommand : Prop :=
  ∀ i : Instr, i.wf = true → decode (encode i) = .ok i

/-- R62, R63: a word that decodes is the one encoding of a well-formed command. -/
def Obligations.DecodedWordIsTheEncoding : Prop :=
  ∀ (w : Word) (i : Instr), decode w = .ok i → i.wf = true ∧ encode i = w

/-- R65: a reserved word raises `ILLEGAL` and changes nothing else, in every phase, as the host's write too; and every
other word is a command. -/
def Obligations.ReservedWordRaisesIllegal : Prop :=
  (∀ (w : Word) (s : State), reservedWord w → issueCommand w s = .next { s with st := 2#32 }) ∧
  (∀ (w : Word) (s : State) (todo : List HostStep) (rest : List Turn), reservedWord w →
    hostIsNext s (.wr 0 w) todo rest →
    step s = .next { s with schedule := rest, hostTodo := todo, st := 2#32 }) ∧
  (∀ w : Word, ¬ reservedWord w → ∃ i : Instr, i.wf = true ∧ decode w = .ok i)

/-- R62: one word of each unit, written out from the table, stands for its command. -/
def Obligations.SampleWordsStandForTheirCommands : Prop :=
  decode 0x01000000#32 = .ok .init ∧ decode 0x12000000#32 = .ok .tickDelta ∧ decode 0x20000000#32 = .ok .getEvent ∧
  decode 0x30000003#32 = .ok (.setMode 3#3) ∧ decode 0x4000ABCD#32 = .ok (.txEnqueue 0xABCD#16) ∧
  decode 0x48000000#32 = .ok .rxEnqueue

/-! ## The step -/

/-- R11, R63: when the host's next step writes a word that decodes to `i`, the step is `exec i`, with the host's step
and the turn used up. -/
def Obligations.StepRunsTheDecodedCommand : Prop :=
  ∀ (s : State) (w : Word) (i : Instr) (todo : List HostStep) (rest : List Turn),
    hostIsNext s (.wr 0 w) todo rest → decode w = .ok i →
    step s = exec i { s with schedule := rest, hostTodo := todo }

/-- Log 11: a word placed by `withFetchWord` is run by the very next step, from the state it was placed in. -/
def Obligations.PlacedWordRunsNext : Prop :=
  ∀ (s : State) (nbits w : Nat) (i : Instr), s.phase ≠ .initWait → decodeTableWord nbits w = some i →
    step (s.withFetchWord nbits w) = exec i s

/-- R31: an event has its rule's effect exactly when the table enables it; a disabled event has no effect at all. -/
def Obligations.EventActsExactlyWhenEnabled : Prop :=
  ∀ (s : State) (e : Event) (rest : List Turn), s.schedule = .event e :: rest →
    (enabledByTable e s → step s = .next (eventEffect e { s with schedule := rest })) ∧
    (¬ enabledByTable e s → step s = .next { s with schedule := rest })

/-- R13, R11: in `INIT_WAIT` the host has no step; its turn passes and it keeps its next step (log 2). -/
def Obligations.HostIsHeldInInitWait : Prop :=
  ∀ (s : State) (rest : List Turn), s.phase = .initWait → s.schedule = .host :: rest →
    step s = .next { s with schedule := rest }

/-- R10, R11: `RD n` returns register `n`, in R10's numbering, `RD 0` returns 0, and nothing of the block changes. -/
def Obligations.HostReadReturnsTheRegister : Prop :=
  ∀ (s : State) (n : Fin 8) (todo : List HostStep) (rest : List Turn), hostIsNext s (.rd n) todo rest →
    step s = .next { s with
      schedule := rest
      hostTodo := todo
      hostReads := s.hostReads ++ [![0#32, s.st, s.a0, s.a1, s.a2, s.a3, s.r0, s.r1] n] }

/-- R11: `WR n, v` writes `A[n-2]` for `n` in 2..5 and changes nothing for `n` in 1, 6, 7. -/
def Obligations.HostWriteReachesOnlyOperandRegisters : Prop :=
  ∀ (s : State) (n : Fin 8) (v : Word) (todo : List HostStep) (rest : List Turn), n ≠ 0 →
    hostIsNext s (.wr n v) todo rest →
    step s = .next { s with
      schedule := rest
      hostTodo := todo
      a0 := if n = 2 then v else s.a0
      a1 := if n = 3 then v else s.a1
      a2 := if n = 4 then v else s.a2
      a3 := if n = 5 then v else s.a3 }

/-- R50: an aligned host `LOAD` returns `MemRead`, an aligned `STORE` performs `MemWrite`, and nothing else changes. -/
def Obligations.HostLoadAndStoreReachMemory : Prop :=
  ∀ (s : State) (a v : Word) (n : AccessSize) (todo : List HostStep) (rest : List Turn), a.toNat % sizeBytes n = 0 →
    (hostIsNext s (.load a n) todo rest →
      step s = .next { s with schedule := rest, hostTodo := todo, hostReads := s.hostReads ++ [memRead s.mem a n] }) ∧
    (hostIsNext s (.store a n v) todo rest →
      step s = .next { s with schedule := rest, hostTodo := todo, mem := memWrite s.mem a n v })

/-- The MODEL's choice (log 10) for what R50 leaves outside the block: a misaligned host access stops the model. -/
def Obligations.MisalignedHostAccessStops : Prop :=
  ∀ (s : State) (a v : Word) (n : AccessSize) (todo : List HostStep) (rest : List Turn), a.toNat % sizeBytes n ≠ 0 →
    (hostIsNext s (.load a n) todo rest → step s = .fault .hostAccessMisaligned) ∧
    (hostIsNext s (.store a n v) todo rest → step s = .fault .hostAccessMisaligned)

/-! ## Memory -/

/-- R42, R41: `MemRead` is the little-endian sum, with addresses modulo 2^32; so is the 2-byte read of the block's `u16`
fields, the lengths of R45 and R46. -/
def Obligations.MemReadIsTheLittleEndianSum : Prop :=
  ∀ (m : Memory) (a : Word),
    (∀ n : AccessSize, (memRead m a n).toNat =
      ∑ i ∈ Finset.range (sizeBytes n), (readByte m ((a.toNat + i) % 2 ^ 32)).toNat * 256 ^ i) ∧
    (memReadHalf m a).toNat = ∑ i ∈ Finset.range 2, (readByte m ((a.toNat + i) % 2 ^ 32)).toNat * 256 ^ i

/-- R43, R41: `MemWrite` puts bits `8i+7..8i` at address `(addr + i) mod 2^32` and leaves every other byte. -/
def Obligations.MemWriteStoresLittleEndianBytes : Prop :=
  ∀ (m : Memory) (a v : Word) (n : AccessSize), Memory.wf m →
    (∀ i < sizeBytes n, readByte (memWrite m a n v) ((a.toNat + i) % 2 ^ 32) = v.extractLsb' (8 * i) 8) ∧
    (∀ x, (∀ i < sizeBytes n, x ≠ (a.toNat + i) % 2 ^ 32) → readByte (memWrite m a n v) x = readByte m x)

/-! ## The invariant -/

/-- R14, R15, R22, R24, R40, R48, R151: every step keeps the invariant. -/
def Obligations.EveryStepKeepsTheInvariant : Prop :=
  ∀ s t : State, s.Inv → step s = .next t → t.Inv

/-- The invariant holds at reset (the parameters at reset are the model's choice, log 7). -/
def Obligations.InvariantHoldsAtReset : Prop := State.reset.Inv

/-! ## Sequencing and initialization -/

/-- R63, R161: every well-formed command but `INIT` raises `SEQ` outside `RUN`, `INIT` outside `RESET`; nothing else
changes. In `INIT_WAIT`, which R63 says cannot be met here, that is the model's reading (log 13). -/
def Obligations.CommandOutOfSequenceRaisesSeq : Prop :=
  (∀ (i : Instr) (s : State), i.wf = true → i ≠ .init → s.phase ≠ .run → exec i s = .next { s with st := 3#32 }) ∧
  (∀ s : State, s.phase ≠ .reset → exec .init s = .next { s with st := 3#32 })

/-- R163: one status is reported, in the order `ILLEGAL`, `SEQ`, `BADARG`, `BUSY`, `OK` (an accepted `INIT` writes none,
R150). -/
def Obligations.StatusesAreReportedInOrder : Prop :=
  ∀ (s : State) (w : Word) (todo : List HostStep) (rest : List Turn), hostIsNext s (.wr 0 w) todo rest →
    ∃ t, step s = .next t ∧
      ∀ i, (reservedWord w → t.st = 2#32) ∧
        (decode w = .ok i →
          (i ≠ .init ∧ s.phase ≠ .run → t.st = 3#32) ∧
          (i = .init ∧ s.phase ≠ .reset → t.st = 3#32) ∧
          (i = .init ∧ s.phase = .reset → t.st = s.st) ∧
          (i ≠ .init ∧ s.phase = .run →
            let enqueue := i = .rxEnqueue ∨ ∃ n, i = .txEnqueue n
            let busy := (i = .rxEnqueue ∧ s.rxBusy = true) ∨ ((∃ n, i = .txEnqueue n) ∧ s.txBusy = true)
            (enqueue ∧ s.a0.toNat % 4 ≠ 0 → t.st = 4#32 ∧ t.r0 = s.r0) ∧
            (s.a0.toNat % 4 = 0 ∧ busy → t.st = 1#32) ∧
            (¬ (enqueue ∧ s.a0.toNat % 4 ≠ 0) ∧ ¬ busy → t.st = 0#32)))

/-- R150: `INIT` in `RESET` enters `INIT_WAIT`, writes no status and holds the host (its turn passes and it keeps its
next step: log 2); in any other phase it raises `SEQ` (in `INIT_WAIT`, which no step of the machine meets: log 13). -/
def Obligations.InitStartsTheWait : Prop :=
  decode 0x01000000#32 = .ok .init ∧
  (∀ s : State, s.phase = .reset → exec .init s = .next { s with phase := .initWait }) ∧
  (∀ s : State, s.phase ≠ .reset → exec .init s = .next { s with st := 3#32 }) ∧
  (∀ (s t : State) (rest : List Turn), s.phase = .reset → exec .init s = .next t →
    step { t with schedule := .host :: rest } = .next { t with schedule := rest })

/-- R151: `INIT_DONE`, enabled in `INIT_WAIT` with `HW_READY = 1`, gives every unit its initial value and enters `RUN`;
not ready, it does nothing. -/
def Obligations.InitDoneEntersRun : Prop :=
  ∀ (s : State) (rest : List Turn), s.schedule = .event .initDone :: rest → s.phase = .initWait →
    (s.hwReady = true →
      step s = .next { s with
        schedule := rest, timeNs := 0, evt := 0#2, btn := .released, mode := .off, led := false, txBusy := false,
        rxBusy := false, phase := .run, st := 0#32 }) ∧
    (s.hwReady = false → step s = .next { s with schedule := rest })

/-- R151, U5: while `HW_READY` is not set and power stays on, `INIT_WAIT` lasts for ever and nothing but the input
`BCNT_IN` and the schedule changes. That the host's turns pass and it keeps every step it had is log 2. -/
def Obligations.NeverReadyHardwareHangsForEver : Prop :=
  ∀ (k : Nat) (s : State), s.phase = .initWait → s.hwReady = false → Turn.event (.hwrdySet true) ∉ s.schedule →
    Turn.powerOn ∉ s.schedule →
    ∃ t, Host.Core.run Sys2Proof.core k s = .next t ∧ t.schedule = s.schedule.drop k ∧
      t = { s with schedule := t.schedule, bcntIn := t.bcntIn }

/-- R153: `SERVICE` writes `ST = OK` and changes nothing else. -/
def Obligations.ServiceOnlyReportsOk : Prop :=
  decode 0x02000000#32 = .ok .service ∧
  ∀ s : State, s.phase = .run → exec .service s = .next { s with st := 0#32 }

/-- R180: power-on reset puts the block's state at the reset column of R32, from any state, with the inputs whatever
the environment holds; `State.reset` is such a state. That power-on is a turn, and that the parameters, the host's
steps and record and the count of draws stay, is log 12. -/
def Obligations.PowerOnResetsTheBlock : Prop :=
  (∀ (s : State) (rest : List Turn), s.schedule = .powerOn :: rest →
    ∃ t, step s = .next t ∧ t.phase = .reset ∧ t.st = 0#32 ∧ t.timeNs = 0 ∧ t.evt = 0#2 ∧ t.btn = .released ∧
      t.mode = .off ∧ t.led = false ∧ t.ledOut = false ∧ t.txBusy = false ∧ t.rxBusy = false ∧ t.wire = [] ∧
      t.hwReady = s.hwReady ∧ t.bcntIn = s.bcntIn ∧ t.cfg = s.cfg ∧ t.hostTodo = s.hostTodo ∧
      t.hostReads = s.hostReads ∧ t.draws = s.draws ∧ t.schedule = rest) ∧
  State.reset.phase = .reset ∧ State.reset.st = 0#32 ∧ State.reset.unitsIdle

/-! ## TickClock -/

/-- R80: `TICK_ADV` in `RUN` adds one quantum modulo the period and changes nothing else; outside `RUN` it does
nothing. From a sound state the counter either rises by the quantum or returns to 0. -/
def Obligations.TickAdvStepsAndWraps : Prop :=
  ∀ (s : State) (rest : List Turn), s.schedule = .event .tickAdv :: rest →
    (s.phase = .run → step s = .next { s with
      schedule := rest, timeNs := (s.timeNs + s.cfg.hrResNs) % s.cfg.tickPeriodNs }) ∧
    (s.phase ≠ .run → step s = .next { s with schedule := rest }) ∧
    (s.phase = .run → s.cfg.wf → s.clockOk →
      (s.timeNs + s.cfg.hrResNs) % s.cfg.tickPeriodNs = s.timeNs + s.cfg.hrResNs ∨
      (s.timeNs + s.cfg.hrResNs) % s.cfg.tickPeriodNs = 0)

/-- R81: `TICK_COUNT` returns the counter floored to `TICK_RES_NS`, as a valid Tick. -/
def Obligations.TickCountReturnsTheFlooredSample : Prop :=
  decode 0x10000000#32 = .ok .tickCount ∧
  ∀ s : State, s.phase = .run → s.cfg.wf → s.clockOk →
    ∃ sec nsec : Word, exec .tickCount s = .next { s with r0 := sec, r1 := nsec, st := 0#32 } ∧
      pairNs sec nsec = s.timeNs / s.cfg.tickResNs * s.cfg.tickResNs ∧ nsec.toNat ≤ 999999999

/-- R82: `TICK_HRCOUNT` returns the counter itself, less than `TICK_RES_NS` above what `TICK_COUNT` returns in the same
state, and equal to it where no finer source exists. -/
def Obligations.TickHrcountReturnsTheExactSample : Prop :=
  decode 0x11000000#32 = .ok .tickHrcount ∧
  ∀ s : State, s.phase = .run → s.cfg.wf → s.clockOk →
    ∃ u v : State, exec .tickCount s = .next u ∧ exec .tickHrcount s = .next v ∧
      v = { s with r0 := v.r0, r1 := v.r1, st := 0#32 } ∧ pairNs v.r0 v.r1 = s.timeNs ∧ v.r1.toNat ≤ 999999999 ∧
      pairNs u.r0 u.r1 ≤ pairNs v.r0 v.r1 ∧ pairNs v.r0 v.r1 < pairNs u.r0 u.r1 + s.cfg.tickResNs ∧
      (s.cfg.hrResNs = s.cfg.tickResNs → v = u)

/-- R83: on valid Ticks `TICK_DELTA` returns `lhs - rhs`, or `lhs - rhs + TICK_PERIOD_NS` where `lhs` is earlier by less
than a period, as a valid Tick; in the remaining cases it completes with `ST = OK` and writes nothing but the two
results, which nothing constrains (R86 (2), (3); log 20 on exactly a period). The count of draws is the model's own
(log 8). -/
def Obligations.TickDeltaCorrectsOneWrap : Prop :=
  decode 0x12000000#32 = .ok .tickDelta ∧
  ∀ s : State, s.phase = .run → s.cfg.wf →
    (s.a1.toNat ≤ 999999999 → s.a3.toNat ≤ 999999999 → pairNs s.a2 s.a3 ≤ pairNs s.a0 s.a1 →
      ∃ sec nsec : Word, exec .tickDelta s = .next { s with r0 := sec, r1 := nsec, st := 0#32 } ∧
        pairNs sec nsec = pairNs s.a0 s.a1 - pairNs s.a2 s.a3 ∧ nsec.toNat ≤ 999999999) ∧
    (s.a1.toNat ≤ 999999999 → s.a3.toNat ≤ 999999999 → pairNs s.a0 s.a1 < pairNs s.a2 s.a3 →
      pairNs s.a2 s.a3 < pairNs s.a0 s.a1 + s.cfg.tickPeriodNs →
      ∃ sec nsec : Word, exec .tickDelta s = .next { s with r0 := sec, r1 := nsec, st := 0#32 } ∧
        pairNs sec nsec = pairNs s.a0 s.a1 + s.cfg.tickPeriodNs - pairNs s.a2 s.a3 ∧ nsec.toNat ≤ 999999999) ∧
    (999999999 < s.a1.toNat ∨ 999999999 < s.a3.toNat ∨
        pairNs s.a0 s.a1 + s.cfg.tickPeriodNs ≤ pairNs s.a2 s.a3 →
      ∃ t, exec .tickDelta s = .next t ∧ t = { s with r0 := t.r0, r1 := t.r1, st := 0#32, draws := t.draws })

/-- R83, end: with the full 2^32 s period `TICK_DELTA` is field-wise subtraction with borrow and wrapping seconds. -/
def Obligations.TickDeltaIsFieldwiseSubtraction : Prop :=
  ∀ s : State, s.phase = .run → s.cfg.tickPeriodNs = 2 ^ 32 * nsPerSec → s.a1.toNat ≤ 999999999 →
    s.a3.toNat ≤ 999999999 →
    exec .tickDelta s = .next { s with
      r0 := s.a0 - s.a2 - (if s.a1.toNat < s.a3.toNat then 1#32 else 0#32)
      r1 := s.a1 - s.a3 + (if s.a1.toNat < s.a3.toNat then 1000000000#32 else 0#32)
      st := 0#32 }

/-- R84: `TICK_COMPARE` returns -1, 0 or +1 by the unsigned order of seconds, then nanoseconds, on all operands, and
swapping the operands negates the result. -/
def Obligations.TickCompareIsATotalOrder : Prop :=
  decode 0x13000000#32 = .ok .tickCompare ∧
  ∀ s : State, s.phase = .run →
    ∃ c : Int, exec .tickCompare s = .next { s with r0 := BitVec.ofInt 32 c, st := 0#32 } ∧
      (c = -1 ↔ s.a0 < s.a2 ∨ (s.a0 = s.a2 ∧ s.a1 < s.a3)) ∧ (c = 0 ↔ s.a0 = s.a2 ∧ s.a1 = s.a3) ∧
      (c = 1 ↔ s.a2 < s.a0 ∨ (s.a0 = s.a2 ∧ s.a3 < s.a1)) ∧
      exec .tickCompare { s with a0 := s.a2, a1 := s.a3, a2 := s.a0, a3 := s.a1 } =
        .next { s with
          a0 := s.a2, a1 := s.a3, a2 := s.a0, a3 := s.a1, r0 := BitVec.ofInt 32 (-c), st := 0#32 }

/-- R87: two samples `k` quanta apart, less than a period, later one as `lhs`: `TICK_DELTA` returns the elapsed time,
exactly for `TICK_HRCOUNT` and to within `TICK_RES_NS` for `TICK_COUNT` (where a wrapped counter has not reached the
first sample again). -/
def Obligations.SuccessiveSamplesGiveTheElapsedTime : Prop :=
  ∀ (s t u v w : State) (k : Nat) (i : Instr), s.Inv → s.phase = .run → t = afterTicks k s →
    (i = .tickHrcount ∨ i = .tickCount) → exec i s = .next u → exec i t = .next v →
    (s.timeNs + k * s.cfg.hrResNs < s.cfg.tickPeriodNs ∨
      (s.cfg.tickPeriodNs ≤ s.timeNs + k * s.cfg.hrResNs ∧
        s.timeNs + k * s.cfg.hrResNs < s.cfg.tickPeriodNs + pairNs u.r0 u.r1)) →
    w.phase = .run → w.cfg = s.cfg → w.a0 = v.r0 → w.a1 = v.r1 → w.a2 = u.r0 → w.a3 = u.r1 →
    ∃ x, exec .tickDelta w = .next x ∧ x.st = 0#32 ∧
      (i = .tickHrcount → pairNs x.r0 x.r1 = k * s.cfg.hrResNs) ∧
      (i = .tickCount → pairNs x.r0 x.r1 < k * s.cfg.hrResNs + s.cfg.tickResNs ∧
        k * s.cfg.hrResNs < pairNs x.r0 x.r1 + s.cfg.tickResNs)

/-! ## EventCapture -/

/-- R100: an enabled `EDGE(lvl)` overwrites `BTN`, ORs one bit into `EVT` and changes nothing else; outside `RUN` it
leaves no trace. -/
def Obligations.EdgeOverwritesButtonAndAccumulates : Prop :=
  ∀ (s : State) (lvl : Bool) (rest : List Turn), s.schedule = .event (.edge lvl) :: rest →
    (s.phase = .run → step s = .next { s with
      schedule := rest
      btn := if lvl then .pressed else .released
      evt := s.evt ||| (if lvl then 1#2 else 2#2) }) ∧
    (s.phase ≠ .run → step s = .next { s with schedule := rest })

/-- R102: `GET_EVENT` returns the mask and clears it in one step; a second one at once returns 0. -/
def Obligations.GetEventReadsAndClears : Prop :=
  decode 0x20000000#32 = .ok .getEvent ∧
  ∀ s : State, s.phase = .run →
    exec .getEvent s = .next { s with r0 := s.evt.setWidth 32, evt := 0#2, st := 0#32 } ∧
    exec .getEvent { s with r0 := s.evt.setWidth 32, evt := 0#2, st := 0#32 } =
      .next { s with r0 := 0#32, evt := 0#2, st := 0#32 }

/-- R104: any run of `EDGE` steps and then a `GET_EVENT` returns what was pending OR one bit for each kind of edge seen,
leaves the mask empty, and `BTN` follows the last edge. -/
def Obligations.NoEdgeIsLostBeforeTheRead : Prop :=
  ∀ (s : State) (lvls : List Bool) (todo : List HostStep) (rest : List Turn), s.phase = .run →
    s.schedule = lvls.map (fun l => .event (.edge l)) ++ .host :: rest → s.hostTodo = .wr 0 0x20000000#32 :: todo →
    Host.Core.run Sys2Proof.core (lvls.length + 1) s = .next { s with
      schedule := rest
      hostTodo := todo
      evt := 0#2
      btn := (lvls.getLast?.map fun l => if l then .pressed else .released).getD s.btn
      r0 := s.evt.setWidth 32 ||| (if true ∈ lvls then 1#32 else 0#32) ||| (if false ∈ lvls then 2#32 else 0#32)
      st := 0#32 }

/-! ## BlinkSequencer -/

/-- R110: `SET_MODE` assigns the mode, recomputes `LED` with it and changes nothing else but `ST`. That the meaning
itself, which no word reaches with the numbers 5..7, raises `ILLEGAL` for them is log 15. -/
def Obligations.SetModeAssignsAndRecomputes : Prop :=
  (∀ m : BitVec 3, m.toNat ≤ 4 → decode (0x30000000#32 + m.setWidth 32) = .ok (.setMode m)) ∧
  (∀ (s : State) (m : BitVec 3) (mode : BlinkMode), s.phase = .run →
    (m, mode) ∈ [(0#3, BlinkMode.off), (1#3, .slow), (2#3, .medium), (3#3, .fast), (4#3, .on)] →
    exec (.setMode m) s = .next { s with mode := mode, led := levelByRule mode s.bcntIn, st := 0#32 }) ∧
  (∀ (s : State) (m : BitVec 3), 4 < m.toNat → exec (.setMode m) s = .next { s with st := 2#32 })

/-- R111: `GET_MODE` returns the mode's number and changes nothing else but `ST`. -/
def Obligations.GetModeReturnsTheMode : Prop :=
  decode 0x31000000#32 = .ok .getMode ∧
  ∀ (s : State) (m : Word) (mode : BlinkMode), s.phase = .run → s.mode = mode →
    (m, mode) ∈ [(0#32, BlinkMode.off), (1#32, .slow), (2#32, .medium), (3#32, .fast), (4#32, .on)] →
    exec .getMode s = .next { s with r0 := m, st := 0#32 }

/-- R112, R113: `BLINK_UPDATE` sets `LED` to the comparator's output, strictly above the exact product, and changes
nothing else but `ST`; the pin follows. -/
def Obligations.BlinkUpdateComparesStrictly : Prop :=
  decode 0x32000000#32 = .ok .blinkUpdate ∧
  ∀ s : State, s.phase = .run →
    exec .blinkUpdate s = .next { s with led := levelByRule s.mode s.bcntIn, st := 0#32 } ∧
    State.ledOut { s with led := levelByRule s.mode s.bcntIn, st := 0#32 } = levelByRule s.mode s.bcntIn

/-- R115, R152: `BCNT_SET` and `HWRDY_SET` are enabled in every phase and change only the input they set. -/
def Obligations.InputEventsSetOnlyTheirInput : Prop :=
  ∀ (s : State) (v : Word) (b : Bool) (rest : List Turn),
    (s.schedule = .event (.bcntSet v) :: rest → step s = .next { s with schedule := rest, bcntIn := v }) ∧
    (s.schedule = .event (.hwrdySet b) :: rest → step s = .next { s with schedule := rest, hwReady := b })

/-! ## AsyncSerialChannel, transmit side -/

/-- R125: `TX_ENQUEUE` answers `BADARG` on a misaligned list, then `BUSY` with `R0 = 0`, else latches the list; it never
touches memory. -/
def Obligations.TxEnqueueLatchesOrRejects : Prop :=
  (∀ n : Half, decode (0x40000000#32 + n.setWidth 32) = .ok (.txEnqueue n)) ∧
  ∀ (s : State) (n : Half), s.phase = .run →
    (s.a0.toNat % 4 ≠ 0 → exec (.txEnqueue n) s = .next { s with st := 4#32 }) ∧
    (s.a0.toNat % 4 = 0 → s.txBusy = true → exec (.txEnqueue n) s = .next { s with r0 := 0#32, st := 1#32 }) ∧
    (s.a0.toNat % 4 = 0 → s.txBusy = false → exec (.txEnqueue n) s = .next { s with
      txFaddr := s.a0, txNfrag := n, txFi := 0#16, txBi := 0#16, txBusy := true, r0 := 1#32, st := 0#32 })

/-- R126: `TX_ABORT` clears `TX_BUSY` and nothing else but `ST`; after it `TX_STEP` does nothing and an aligned enqueue
is accepted. -/
def Obligations.TxAbortFreesTheChannel : Prop :=
  decode 0x41000000#32 = .ok .txAbort ∧
  ∀ s : State, s.phase = .run →
    exec .txAbort s = .next { s with txBusy := false, st := 0#32 } ∧
    takeEvent .txStep { s with txBusy := false, st := 0#32 } = { s with txBusy := false, st := 0#32 } ∧
    (∀ n : Half, s.a0.toNat % 4 = 0 →
      ∃ t, exec (.txEnqueue n) { s with txBusy := false, st := 0#32 } = .next t ∧ t.r0 = 1#32 ∧ t.st = 0#32)

/-- R127: `TX_QUERY` returns `TX_BUSY` and changes nothing else but `ST`. -/
def Obligations.TxQueryReturnsTheFlag : Prop :=
  decode 0x42000000#32 = .ok .txQuery ∧
  ∀ s : State, s.phase = .run →
    exec .txQuery s = .next { s with r0 := if s.txBusy then 1#32 else 0#32, st := 0#32 }

/-- R128: an enabled `TX_STEP` completes after the last fragment, moves on from a finished one, or sends the next byte;
it writes no memory. -/
def Obligations.TxStepSendsMovesOrCompletes : Prop :=
  ∀ (s : State) (rest : List Turn), s.schedule = .event .txStep :: rest → s.phase = .run → s.txBusy = true →
    let f := s.txFaddr + 8#32 * s.txFi.setWidth 32
    let len := (memReadHalf s.mem (f + 4#32)).toNat
    (s.txFi = s.txNfrag → step s = .next { s with schedule := rest, txBusy := false }) ∧
    (s.txFi ≠ s.txNfrag → len ≤ s.txBi.toNat →
      step s = .next { s with schedule := rest, txFi := s.txFi + 1#16, txBi := 0#16 }) ∧
    (s.txFi ≠ s.txNfrag → s.txBi.toNat < len →
      step s = .next { s with
        schedule := rest
        wire := s.wire ++ [readByte s.mem (memRead s.mem f .four + s.txBi.setWidth 32).toNat]
        txBi := s.txBi + 1#16 })

/-- R128: a transmission left alone takes exactly `len_0 + … + len_(n-1) + n + 1` `TX_STEP` steps, is busy until the
last of them, and appends exactly its fragments' bytes in order. -/
def Obligations.TransmissionSendsExactlyItsFragments : Prop :=
  ∀ (s : State) (rest : List Turn) (total : Nat), s.phase = .run → s.txBusy = true → s.txFi = 0#16 → s.txBi = 0#16 →
    total = (payload s.mem s.txFaddr s.txNfrag.toNat).length + s.txNfrag.toNat + 1 →
    s.schedule = List.replicate total (.event .txStep) ++ rest →
    Host.Core.run Sys2Proof.core total s = .next { s with
      schedule := rest
      txBusy := false
      txFi := s.txNfrag
      wire := s.wire ++ payload s.mem s.txFaddr s.txNfrag.toNat } ∧
    ∀ k < total, ∃ t, Host.Core.run Sys2Proof.core k s = .next t ∧ t.txBusy = true

/-! ## AsyncSerialChannel, receive side -/

/-- R131: `RX_ENQUEUE` answers `BADARG` on a misaligned descriptor, then `BUSY` with `R0 = 0`, else latches buffer and
capacity and writes `NONE` to the completion word at `d + 8`. -/
def Obligations.RxEnqueueArmsOrRejects : Prop :=
  decode 0x48000000#32 = .ok .rxEnqueue ∧
  ∀ s : State, s.phase = .run →
    (s.a0.toNat % 4 ≠ 0 → exec .rxEnqueue s = .next { s with st := 4#32 }) ∧
    (s.a0.toNat % 4 = 0 → s.rxBusy = true → exec .rxEnqueue s = .next { s with r0 := 0#32, st := 1#32 }) ∧
    (s.a0.toNat % 4 = 0 → s.rxBusy = false → exec .rxEnqueue s = .next { s with
      rxDaddr := s.a0
      rxBuf := memRead s.mem s.a0 .four
      rxMax := memReadHalf s.mem (s.a0 + 4#32)
      rxCnt := 0#16
      mem := memWrite s.mem (s.a0 + 8#32) .four 0#32
      rxBusy := true
      r0 := 1#32
      st := 0#32 })

/-- R132: `RX_ABORT` clears `RX_BUSY` and nothing else but `ST`, memory included; after it no receive event acts. -/
def Obligations.RxAbortFreesTheChannel : Prop :=
  decode 0x49000000#32 = .ok .rxAbort ∧
  ∀ s : State, s.phase = .run →
    exec .rxAbort s = .next { s with rxBusy := false, st := 0#32 } ∧
    ∀ e : Event, e.agent = .serRx →
      takeEvent e { s with rxBusy := false, st := 0#32 } = { s with rxBusy := false, st := 0#32 }

/-- R133: `RX_QUERY` returns `RX_BUSY` and changes nothing else but `ST`. -/
def Obligations.RxQueryReturnsTheFlag : Prop :=
  decode 0x4A000000#32 = .ok .rxQuery ∧
  ∀ s : State, s.phase = .run →
    exec .rxQuery s = .next { s with r0 := if s.rxBusy then 1#32 else 0#32, st := 0#32 }

/-- R134: `RX_BYTE(b)` with room stores `b` at `(RX_BUF + RX_CNT) mod 2^32`, counts it, and changes nothing else; full
or idle it does nothing. -/
def Obligations.RxByteFillsTheBuffer : Prop :=
  ∀ (s : State) (b : Byte) (rest : List Turn), s.schedule = .event (.rxByte b) :: rest → s.phase = .run →
    Memory.wf s.mem →
    (s.rxBusy = true → s.rxCnt.toNat < s.rxMax.toNat →
      ∃ t, step s = .next t ∧ t = { s with schedule := rest, rxCnt := t.rxCnt, mem := t.mem } ∧
        t.rxCnt.toNat = s.rxCnt.toNat + 1 ∧
        readByte t.mem ((s.rxBuf.toNat + s.rxCnt.toNat) % 2 ^ 32) = b ∧
        ∀ x, x ≠ (s.rxBuf.toNat + s.rxCnt.toNat) % 2 ^ 32 → readByte t.mem x = readByte s.mem x) ∧
    (s.rxBusy = false ∨ s.rxMax.toNat ≤ s.rxCnt.toNat → step s = .next { s with schedule := rest })

/-- R135: `RX_DONE` with at least one byte writes `DATA(RX_CNT)` at `d + 8` and frees the channel; with none it does
nothing. -/
def Obligations.RxDoneWritesTheLength : Prop :=
  ∀ (s : State) (rest : List Turn), s.schedule = .event .rxDone :: rest → s.phase = .run → s.rxBusy = true →
    (1 ≤ s.rxCnt.toNat → step s = .next { s with
      schedule := rest
      mem := memWrite s.mem (s.rxDaddr + 8#32) .four (s.rxCnt.setWidth 32 <<< 16 ||| 1#32)
      rxBusy := false }) ∧
    (s.rxCnt = 0#16 → step s = .next { s with schedule := rest })

/-- R136: `RX_BREAK`, where the engine reports breaks at all, writes `BREAK` at `d + 8` and frees the channel; with
`HAS_BREAK = false` it does nothing. -/
def Obligations.RxBreakWritesBreak : Prop :=
  ∀ (s : State) (rest : List Turn), s.schedule = .event .rxBreak :: rest → s.phase = .run → s.rxBusy = true →
    (s.cfg.hasBreak = true → step s = .next { s with
      schedule := rest
      mem := memWrite s.mem (s.rxDaddr + 8#32) .four 2#32
      rxBusy := false }) ∧
    (s.cfg.hasBreak = false → step s = .next { s with schedule := rest })

/-- R137, R52: a reception armed on an idle channel and left alone. The host polls `NONE` after the bytes came and
before `RX_DONE`, then `DATA(n)`, which it decodes as such; then bytes `0..n-1` of the buffer are the received bytes
in order. -/
def Obligations.ReceptionDeliversItsBytes : Prop :=
  ∀ (s : State) (bytes : List Byte) (d buf : Word) (rest : List Turn) (todo : List HostStep),
    s.phase = .run → Memory.wf s.mem → s.rxBusy = false → s.a0 = d → d.toNat % 4 = 0 → buf = memRead s.mem d .four →
    1 ≤ bytes.length → bytes.length ≤ (memReadHalf s.mem (d + 4#32)).toNat →
    (∀ j < bytes.length, (buf + BitVec.ofNat 32 j).toNat ∉ byteAddrs (d + 8#32) 4) →
    s.hostTodo = .wr 0 0x48000000#32 :: .load (d + 8#32) .four :: .load (d + 8#32) .four :: todo →
    s.schedule = .host :: bytes.map (fun b => .event (.rxByte b)) ++ .host :: .event .rxDone :: .host :: rest →
    ∃ t v, Host.Core.run Sys2Proof.core (bytes.length + 4) s = .next t ∧ t.hostReads = s.hostReads ++ [0#32, v] ∧
      completionOf v = some (.data (BitVec.ofNat 16 bytes.length)) ∧ t.rxBusy = false ∧ t.r0 = 1#32 ∧ t.st = 0#32 ∧
      t.schedule = rest ∧ t.hostTodo = todo ∧
      ∀ j, (h : j < bytes.length) → readByte t.mem (buf + BitVec.ofNat 32 j).toNat = bytes[j]

/-- R140 (a), (b), (c): a second enqueue in the same direction is rejected and changes no channel state, after an abort
an enqueue is accepted, and an abort of an idle side keeps it idle. -/
def Obligations.OneOperationPerDirection : Prop :=
  ∀ s : State, s.phase = .run → s.a0.toNat % 4 = 0 →
    (∀ (n k : Half) (t u : State), exec (.txEnqueue n) s = .next t → exec .txAbort t = .next u →
      exec (.txEnqueue k) t = .next { t with r0 := 0#32, st := 1#32 } ∧
      ∃ v, exec (.txEnqueue k) u = .next v ∧ v.r0 = 1#32 ∧ v.st = 0#32 ∧ v.txBusy = true ∧ v.txNfrag = k) ∧
    (∀ t u : State, exec .rxEnqueue s = .next t → exec .rxAbort t = .next u →
      exec .rxEnqueue t = .next { t with r0 := 0#32, st := 1#32 } ∧
      ∃ v, exec .rxEnqueue u = .next v ∧ v.r0 = 1#32 ∧ v.st = 0#32 ∧ v.rxBusy = true ∧ v.rxCnt = 0#16) ∧
    (s.txBusy = false → exec .txAbort s = .next { s with st := 0#32 }) ∧
    (s.rxBusy = false → exec .rxAbort s = .next { s with st := 0#32 })

/-! ## Rules about the whole machine -/

/-- R32, R64: every command completes, and each field is written only by the commands that R32 names: no command writes
`A0`..`A3`, `TIME_NS`, `BTN`, `WIRE` or an input. -/
def Obligations.CommandsWriteOnlyTheirFields : Prop :=
  ∀ (i : Instr) (s : State), ∃ t, exec i s = .next t ∧
    t.a0 = s.a0 ∧ t.a1 = s.a1 ∧ t.a2 = s.a2 ∧ t.a3 = s.a3 ∧ t.timeNs = s.timeNs ∧ t.btn = s.btn ∧ t.wire = s.wire ∧
    t.hwReady = s.hwReady ∧ t.bcntIn = s.bcntIn ∧ t.cfg = s.cfg ∧ t.hostTodo = s.hostTodo ∧ t.schedule = s.schedule ∧
    t.hostReads = s.hostReads ∧
    (t.r1 ≠ s.r1 → i ∈ [.tickCount, .tickHrcount, .tickDelta]) ∧
    (t.r0 ≠ s.r0 → i ∈ [.tickCount, .tickHrcount, .tickDelta, .tickCompare, .getEvent, .getMode, .txQuery, .rxEnqueue,
      .rxQuery] ∨ ∃ n, i = .txEnqueue n) ∧
    (t.phase ≠ s.phase → i = .init) ∧ (t.evt ≠ s.evt → i = .getEvent) ∧ (t.mode ≠ s.mode → ∃ m, i = .setMode m) ∧
    (t.led ≠ s.led → i = .blinkUpdate ∨ ∃ m, i = .setMode m) ∧
    (t.txBusy ≠ s.txBusy → i = .txAbort ∨ ∃ n, i = .txEnqueue n) ∧
    ((t.txFaddr, t.txNfrag, t.txFi, t.txBi) ≠ (s.txFaddr, s.txNfrag, s.txFi, s.txBi) → ∃ n, i = .txEnqueue n) ∧
    (t.rxBusy ≠ s.rxBusy → i = .rxAbort ∨ i = .rxEnqueue) ∧
    ((t.rxDaddr, t.rxBuf, t.rxMax, t.rxCnt) ≠ (s.rxDaddr, s.rxBuf, s.rxMax, s.rxCnt) → i = .rxEnqueue) ∧
    (t.mem ≠ s.mem → i = .rxEnqueue) ∧ (t.draws ≠ s.draws → i = .tickDelta)

/-- R49, R131: of all commands only an accepted `RX_ENQUEUE` stores to memory, and only to the four bytes of the
completion word at `A0 + 8`; every other byte reads as before. -/
def Obligations.CommandsStoreOnlyTheCompletionWord : Prop :=
  ∀ (i : Instr) (s t : State), Memory.wf s.mem → exec i s = .next t →
    (i = .rxEnqueue ∧ s.phase = .run ∧ s.a0.toNat % 4 = 0 ∧ s.rxBusy = false →
      ∀ x, x ∉ byteAddrs (completionAddr s.a0) 4 → readByte t.mem x = readByte s.mem x) ∧
    (¬ (i = .rxEnqueue ∧ s.phase = .run ∧ s.a0.toNat % 4 = 0 ∧ s.rxBusy = false) →
      ∀ x, readByte t.mem x = readByte s.mem x)

/-- R49: an enabled event stores only to the bytes it names in the state it acts on: `RX_BYTE` to one byte of the buffer,
`RX_DONE` and `RX_BREAK` to the completion word, every other event to none; a disabled one stores nothing. -/
def Obligations.EventsStoreOnlyWhereTheyName : Prop :=
  ∀ (e : Event) (s : State), Memory.wf s.mem →
    ∀ x, (enabledByTable e s → x ∉ eventWrites e s) → readByte (takeEvent e s).mem x = readByte s.mem x

/-- R166: no event touches `A0`..`A3`, `R0`, `R1`, and only `INIT_DONE` touches `ST` and `PHASE`; the host's side is
untouched by all of them. -/
def Obligations.EventsLeaveTheCommandStreamAlone : Prop :=
  ∀ (e : Event) (s : State),
    (takeEvent e s).a0 = s.a0 ∧ (takeEvent e s).a1 = s.a1 ∧ (takeEvent e s).a2 = s.a2 ∧ (takeEvent e s).a3 = s.a3 ∧
    (takeEvent e s).r0 = s.r0 ∧ (takeEvent e s).r1 = s.r1 ∧ (takeEvent e s).cfg = s.cfg ∧
    (takeEvent e s).hostTodo = s.hostTodo ∧ (takeEvent e s).hostReads = s.hostReads ∧
    (e ≠ .initDone → (takeEvent e s).st = s.st ∧ (takeEvent e s).phase = s.phase)

/-- R13: the phase moves only from `RESET` to `INIT_WAIT` by a host write, from `INIT_WAIT` to `RUN` by `INIT_DONE` with
ready hardware, and back to `RESET` only by power. -/
def Obligations.PhaseMovesOnlyForward : Prop :=
  ∀ s t : State, step s = .next t → t.phase ≠ s.phase →
    (s.phase = .reset ∧ t.phase = .initWait ∧ s.schedule.head? = some .host ∧
      s.hostTodo.head? = some (.wr 0 0x01000000#32)) ∨
    (s.phase = .initWait ∧ t.phase = .run ∧ s.hwReady = true ∧ s.schedule.head? = some (.event .initDone)) ∨
    (t.phase = .reset ∧ s.schedule.head? = some .powerOn)

/-- R26, R140 (f): the serial line's record only grows, by at most one byte a step, and only by `TX_STEP`, as long as
power stays on. -/
def Obligations.WireOnlyGrows : Prop :=
  ∀ s t : State, step s = .next t → s.schedule.head? ≠ some .powerOn →
    ∃ l : List Byte, t.wire = s.wire ++ l ∧ l.length ≤ 1 ∧ (l ≠ [] → s.schedule.head? = some (.event .txStep))

/-- R21, R23, R140 (d): in a sound state the busy flags rise only at an accepted enqueue and fall only at a completion,
an abort or power-on. -/
def Obligations.BusyFlagsChangeOnlyAsListed : Prop :=
  ∀ s t : State, s.Inv → step s = .next t →
    (s.txBusy = false → t.txBusy = true → t.r0 = 1#32 ∧ s.schedule.head? = some .host ∧
      ∃ n : Half, s.hostTodo.head? = some (.wr 0 (0x40000000#32 + n.setWidth 32)) ∧ t.txNfrag = n) ∧
    (s.txBusy = true → t.txBusy = false →
      (s.schedule.head? = some (.event .txStep) ∧ s.txFi = s.txNfrag) ∨
      (s.schedule.head? = some .host ∧ s.hostTodo.head? = some (.wr 0 0x41000000#32)) ∨
      s.schedule.head? = some .powerOn) ∧
    (s.rxBusy = false → t.rxBusy = true → t.r0 = 1#32 ∧ s.schedule.head? = some .host ∧
      s.hostTodo.head? = some (.wr 0 0x48000000#32)) ∧
    (s.rxBusy = true → t.rxBusy = false →
      s.schedule.head? = some (.event .rxDone) ∨ s.schedule.head? = some (.event .rxBreak) ∨
      (s.schedule.head? = some .host ∧ s.hostTodo.head? = some (.wr 0 0x49000000#32)) ∨
      s.schedule.head? = some .powerOn)

/-- R165: two events of different sources give the same state in either order, unless both are enabled, one is `TX_STEP`
and the other writes a byte of memory that it reads (`INIT_DONE` is the block's own step, not a source). -/
def Obligations.EventsOfDifferentSourcesCommute : Prop :=
  ∀ (e e' : Event) (s : State), Memory.wf s.mem → e.agent ≠ e'.agent → e.agent ≠ .initDone → e'.agent ≠ .initDone →
    (.txStep ∈ [e, e'] → enabledByTable .txStep s →
      ∀ x ∈ txReads s, (enabledByTable e s → x ∉ eventWrites e s) ∧ (enabledByTable e' s → x ∉ eventWrites e' s)) →
    takeEvent e (takeEvent e' s) = takeEvent e' (takeEvent e s)
end

