-- ==== Sys2Proof/Laws/State.lean ====
section
/-! SUPPORT. What each named update of the state leaves in each field. Every lemma holds by unfolding once, so that no
later proof unfolds an update. -/

namespace Sys2Proof.Machine

variable (s : State)

/-! ## `ST <- w` (R160) -/

@[simp] theorem setSt_a0 (w : Word) : (s.setSt w).a0 = s.a0 := rfl
@[simp] theorem setSt_a1 (w : Word) : (s.setSt w).a1 = s.a1 := rfl
@[simp] theorem setSt_a2 (w : Word) : (s.setSt w).a2 = s.a2 := rfl
@[simp] theorem setSt_a3 (w : Word) : (s.setSt w).a3 = s.a3 := rfl
@[simp] theorem setSt_r0 (w : Word) : (s.setSt w).r0 = s.r0 := rfl
@[simp] theorem setSt_r1 (w : Word) : (s.setSt w).r1 = s.r1 := rfl
@[simp] theorem setSt_st (w : Word) : (s.setSt w).st = w := rfl
@[simp] theorem setSt_phase (w : Word) : (s.setSt w).phase = s.phase := rfl
@[simp] theorem setSt_timeNs (w : Word) : (s.setSt w).timeNs = s.timeNs := rfl
@[simp] theorem setSt_evt (w : Word) : (s.setSt w).evt = s.evt := rfl
@[simp] theorem setSt_btn (w : Word) : (s.setSt w).btn = s.btn := rfl
@[simp] theorem setSt_mode (w : Word) : (s.setSt w).mode = s.mode := rfl
@[simp] theorem setSt_led (w : Word) : (s.setSt w).led = s.led := rfl
@[simp] theorem setSt_txBusy (w : Word) : (s.setSt w).txBusy = s.txBusy := rfl
@[simp] theorem setSt_txFaddr (w : Word) : (s.setSt w).txFaddr = s.txFaddr := rfl
@[simp] theorem setSt_txNfrag (w : Word) : (s.setSt w).txNfrag = s.txNfrag := rfl
@[simp] theorem setSt_txFi (w : Word) : (s.setSt w).txFi = s.txFi := rfl
@[simp] theorem setSt_txBi (w : Word) : (s.setSt w).txBi = s.txBi := rfl
@[simp] theorem setSt_rxBusy (w : Word) : (s.setSt w).rxBusy = s.rxBusy := rfl
@[simp] theorem setSt_rxDaddr (w : Word) : (s.setSt w).rxDaddr = s.rxDaddr := rfl
@[simp] theorem setSt_rxBuf (w : Word) : (s.setSt w).rxBuf = s.rxBuf := rfl
@[simp] theorem setSt_rxMax (w : Word) : (s.setSt w).rxMax = s.rxMax := rfl
@[simp] theorem setSt_rxCnt (w : Word) : (s.setSt w).rxCnt = s.rxCnt := rfl
@[simp] theorem setSt_mem (w : Word) : (s.setSt w).mem = s.mem := rfl
@[simp] theorem setSt_wire (w : Word) : (s.setSt w).wire = s.wire := rfl
@[simp] theorem setSt_hwReady (w : Word) : (s.setSt w).hwReady = s.hwReady := rfl
@[simp] theorem setSt_bcntIn (w : Word) : (s.setSt w).bcntIn = s.bcntIn := rfl
@[simp] theorem setSt_cfg (w : Word) : (s.setSt w).cfg = s.cfg := rfl
@[simp] theorem setSt_draws (w : Word) : (s.setSt w).draws = s.draws := rfl
@[simp] theorem setSt_hostTodo (w : Word) : (s.setSt w).hostTodo = s.hostTodo := rfl
@[simp] theorem setSt_schedule (w : Word) : (s.setSt w).schedule = s.schedule := rfl
@[simp] theorem setSt_hostReads (w : Word) : (s.setSt w).hostReads = s.hostReads := rfl

/-! ## `R[0] <- w` (R64) -/

@[simp] theorem setR0_a0 (w : Word) : (s.setR0 w).a0 = s.a0 := rfl
@[simp] theorem setR0_a1 (w : Word) : (s.setR0 w).a1 = s.a1 := rfl
@[simp] theorem setR0_a2 (w : Word) : (s.setR0 w).a2 = s.a2 := rfl
@[simp] theorem setR0_a3 (w : Word) : (s.setR0 w).a3 = s.a3 := rfl
@[simp] theorem setR0_r0 (w : Word) : (s.setR0 w).r0 = w := rfl
@[simp] theorem setR0_r1 (w : Word) : (s.setR0 w).r1 = s.r1 := rfl
@[simp] theorem setR0_st (w : Word) : (s.setR0 w).st = s.st := rfl
@[simp] theorem setR0_phase (w : Word) : (s.setR0 w).phase = s.phase := rfl
@[simp] theorem setR0_timeNs (w : Word) : (s.setR0 w).timeNs = s.timeNs := rfl
@[simp] theorem setR0_evt (w : Word) : (s.setR0 w).evt = s.evt := rfl
@[simp] theorem setR0_btn (w : Word) : (s.setR0 w).btn = s.btn := rfl
@[simp] theorem setR0_mode (w : Word) : (s.setR0 w).mode = s.mode := rfl
@[simp] theorem setR0_led (w : Word) : (s.setR0 w).led = s.led := rfl
@[simp] theorem setR0_txBusy (w : Word) : (s.setR0 w).txBusy = s.txBusy := rfl
@[simp] theorem setR0_txFaddr (w : Word) : (s.setR0 w).txFaddr = s.txFaddr := rfl
@[simp] theorem setR0_txNfrag (w : Word) : (s.setR0 w).txNfrag = s.txNfrag := rfl
@[simp] theorem setR0_txFi (w : Word) : (s.setR0 w).txFi = s.txFi := rfl
@[simp] theorem setR0_txBi (w : Word) : (s.setR0 w).txBi = s.txBi := rfl
@[simp] theorem setR0_rxBusy (w : Word) : (s.setR0 w).rxBusy = s.rxBusy := rfl
@[simp] theorem setR0_rxDaddr (w : Word) : (s.setR0 w).rxDaddr = s.rxDaddr := rfl
@[simp] theorem setR0_rxBuf (w : Word) : (s.setR0 w).rxBuf = s.rxBuf := rfl
@[simp] theorem setR0_rxMax (w : Word) : (s.setR0 w).rxMax = s.rxMax := rfl
@[simp] theorem setR0_rxCnt (w : Word) : (s.setR0 w).rxCnt = s.rxCnt := rfl
@[simp] theorem setR0_mem (w : Word) : (s.setR0 w).mem = s.mem := rfl
@[simp] theorem setR0_wire (w : Word) : (s.setR0 w).wire = s.wire := rfl
@[simp] theorem setR0_hwReady (w : Word) : (s.setR0 w).hwReady = s.hwReady := rfl
@[simp] theorem setR0_bcntIn (w : Word) : (s.setR0 w).bcntIn = s.bcntIn := rfl
@[simp] theorem setR0_cfg (w : Word) : (s.setR0 w).cfg = s.cfg := rfl
@[simp] theorem setR0_draws (w : Word) : (s.setR0 w).draws = s.draws := rfl
@[simp] theorem setR0_hostTodo (w : Word) : (s.setR0 w).hostTodo = s.hostTodo := rfl
@[simp] theorem setR0_schedule (w : Word) : (s.setR0 w).schedule = s.schedule := rfl
@[simp] theorem setR0_hostReads (w : Word) : (s.setR0 w).hostReads = s.hostReads := rfl

/-! ## `R[0] <- w ; R[1] <- v` (R64) -/

@[simp] theorem setResults_a0 (w v : Word) : (s.setResults w v).a0 = s.a0 := rfl
@[simp] theorem setResults_a1 (w v : Word) : (s.setResults w v).a1 = s.a1 := rfl
@[simp] theorem setResults_a2 (w v : Word) : (s.setResults w v).a2 = s.a2 := rfl
@[simp] theorem setResults_a3 (w v : Word) : (s.setResults w v).a3 = s.a3 := rfl
@[simp] theorem setResults_r0 (w v : Word) : (s.setResults w v).r0 = w := rfl
@[simp] theorem setResults_r1 (w v : Word) : (s.setResults w v).r1 = v := rfl
@[simp] theorem setResults_st (w v : Word) : (s.setResults w v).st = s.st := rfl
@[simp] theorem setResults_phase (w v : Word) : (s.setResults w v).phase = s.phase := rfl
@[simp] theorem setResults_timeNs (w v : Word) : (s.setResults w v).timeNs = s.timeNs := rfl
@[simp] theorem setResults_evt (w v : Word) : (s.setResults w v).evt = s.evt := rfl
@[simp] theorem setResults_btn (w v : Word) : (s.setResults w v).btn = s.btn := rfl
@[simp] theorem setResults_mode (w v : Word) : (s.setResults w v).mode = s.mode := rfl
@[simp] theorem setResults_led (w v : Word) : (s.setResults w v).led = s.led := rfl
@[simp] theorem setResults_txBusy (w v : Word) : (s.setResults w v).txBusy = s.txBusy := rfl
@[simp] theorem setResults_txFaddr (w v : Word) : (s.setResults w v).txFaddr = s.txFaddr := rfl
@[simp] theorem setResults_txNfrag (w v : Word) : (s.setResults w v).txNfrag = s.txNfrag := rfl
@[simp] theorem setResults_txFi (w v : Word) : (s.setResults w v).txFi = s.txFi := rfl
@[simp] theorem setResults_txBi (w v : Word) : (s.setResults w v).txBi = s.txBi := rfl
@[simp] theorem setResults_rxBusy (w v : Word) : (s.setResults w v).rxBusy = s.rxBusy := rfl
@[simp] theorem setResults_rxDaddr (w v : Word) : (s.setResults w v).rxDaddr = s.rxDaddr := rfl
@[simp] theorem setResults_rxBuf (w v : Word) : (s.setResults w v).rxBuf = s.rxBuf := rfl
@[simp] theorem setResults_rxMax (w v : Word) : (s.setResults w v).rxMax = s.rxMax := rfl
@[simp] theorem setResults_rxCnt (w v : Word) : (s.setResults w v).rxCnt = s.rxCnt := rfl
@[simp] theorem setResults_mem (w v : Word) : (s.setResults w v).mem = s.mem := rfl
@[simp] theorem setResults_wire (w v : Word) : (s.setResults w v).wire = s.wire := rfl
@[simp] theorem setResults_hwReady (w v : Word) : (s.setResults w v).hwReady = s.hwReady := rfl
@[simp] theorem setResults_bcntIn (w v : Word) : (s.setResults w v).bcntIn = s.bcntIn := rfl
@[simp] theorem setResults_cfg (w v : Word) : (s.setResults w v).cfg = s.cfg := rfl
@[simp] theorem setResults_draws (w v : Word) : (s.setResults w v).draws = s.draws := rfl
@[simp] theorem setResults_hostTodo (w v : Word) : (s.setResults w v).hostTodo = s.hostTodo := rfl
@[simp] theorem setResults_schedule (w v : Word) : (s.setResults w v).schedule = s.schedule := rfl
@[simp] theorem setResults_hostReads (w v : Word) : (s.setResults w v).hostReads = s.hostReads := rfl

/-! ## `MEM <- m` -/

@[simp] theorem setMem_a0 (m : Memory) : (s.setMem m).a0 = s.a0 := rfl
@[simp] theorem setMem_a1 (m : Memory) : (s.setMem m).a1 = s.a1 := rfl
@[simp] theorem setMem_a2 (m : Memory) : (s.setMem m).a2 = s.a2 := rfl
@[simp] theorem setMem_a3 (m : Memory) : (s.setMem m).a3 = s.a3 := rfl
@[simp] theorem setMem_r0 (m : Memory) : (s.setMem m).r0 = s.r0 := rfl
@[simp] theorem setMem_r1 (m : Memory) : (s.setMem m).r1 = s.r1 := rfl
@[simp] theorem setMem_st (m : Memory) : (s.setMem m).st = s.st := rfl
@[simp] theorem setMem_phase (m : Memory) : (s.setMem m).phase = s.phase := rfl
@[simp] theorem setMem_timeNs (m : Memory) : (s.setMem m).timeNs = s.timeNs := rfl
@[simp] theorem setMem_evt (m : Memory) : (s.setMem m).evt = s.evt := rfl
@[simp] theorem setMem_btn (m : Memory) : (s.setMem m).btn = s.btn := rfl
@[simp] theorem setMem_mode (m : Memory) : (s.setMem m).mode = s.mode := rfl
@[simp] theorem setMem_led (m : Memory) : (s.setMem m).led = s.led := rfl
@[simp] theorem setMem_txBusy (m : Memory) : (s.setMem m).txBusy = s.txBusy := rfl
@[simp] theorem setMem_txFaddr (m : Memory) : (s.setMem m).txFaddr = s.txFaddr := rfl
@[simp] theorem setMem_txNfrag (m : Memory) : (s.setMem m).txNfrag = s.txNfrag := rfl
@[simp] theorem setMem_txFi (m : Memory) : (s.setMem m).txFi = s.txFi := rfl
@[simp] theorem setMem_txBi (m : Memory) : (s.setMem m).txBi = s.txBi := rfl
@[simp] theorem setMem_rxBusy (m : Memory) : (s.setMem m).rxBusy = s.rxBusy := rfl
@[simp] theorem setMem_rxDaddr (m : Memory) : (s.setMem m).rxDaddr = s.rxDaddr := rfl
@[simp] theorem setMem_rxBuf (m : Memory) : (s.setMem m).rxBuf = s.rxBuf := rfl
@[simp] theorem setMem_rxMax (m : Memory) : (s.setMem m).rxMax = s.rxMax := rfl
@[simp] theorem setMem_rxCnt (m : Memory) : (s.setMem m).rxCnt = s.rxCnt := rfl
@[simp] theorem setMem_mem (m : Memory) : (s.setMem m).mem = m := rfl
@[simp] theorem setMem_wire (m : Memory) : (s.setMem m).wire = s.wire := rfl
@[simp] theorem setMem_hwReady (m : Memory) : (s.setMem m).hwReady = s.hwReady := rfl
@[simp] theorem setMem_bcntIn (m : Memory) : (s.setMem m).bcntIn = s.bcntIn := rfl
@[simp] theorem setMem_cfg (m : Memory) : (s.setMem m).cfg = s.cfg := rfl
@[simp] theorem setMem_draws (m : Memory) : (s.setMem m).draws = s.draws := rfl
@[simp] theorem setMem_hostTodo (m : Memory) : (s.setMem m).hostTodo = s.hostTodo := rfl
@[simp] theorem setMem_schedule (m : Memory) : (s.setMem m).schedule = s.schedule := rfl
@[simp] theorem setMem_hostReads (m : Memory) : (s.setMem m).hostReads = s.hostReads := rfl

end Sys2Proof.Machine
end

