-- ==== Sys2Proof/Laws/Ops.lean ====
section
/-! SUPPORT. What the shared operations can do, said once: statuses, the phase check, results, host steps, turns. -/

namespace Sys2Proof.Machine

/-! ## Statuses -/

@[simp] theorem statusCode_ok : statusCode .ok = 0#32 := rfl
@[simp] theorem statusCode_busy : statusCode .busy = 1#32 := rfl
@[simp] theorem statusCode_illegal : statusCode .illegal = 2#32 := rfl
@[simp] theorem statusCode_seq : statusCode .seq = 3#32 := rfl
@[simp] theorem statusCode_badarg : statusCode .badarg = 4#32 := rfl

theorem statusCode_le (x : Status) : (statusCode x).toNat ≤ 4 := by cases x <;> decide

/-- `raise` changes `ST` and nothing else (R160). -/
theorem raise_eq (x : Status) (s : State) : raise x s = { s with st := statusCode x } := rfl

/-- `finish` changes `ST` and nothing else. -/
theorem finish_eq (s : State) : finish s = { s with st := 0#32 } := rfl

/-! ## The phase check (R63) -/

theorem whenRun_of_run {s : State} (h : s.phase = .run) (body : State → State) :
    whenRun s body = .next (body s) := if_pos h

theorem whenRun_of_not_run {s : State} (h : s.phase ≠ .run) (body : State → State) :
    whenRun s body = .next (raise .seq s) := if_neg h

/-- Everything a command under the phase check can answer. -/
theorem whenRun_cases {s t : State} {body : State → State} (h : whenRun s body = .next t) :
    (s.phase = .run ∧ t = body s) ∨ (s.phase ≠ .run ∧ t = { s with st := 3#32 }) := by
  by_cases hp : s.phase = .run
  · rw [whenRun_of_run hp] at h
    exact .inl ⟨hp, (Host.Outcome.next.inj h).symm⟩
  · rw [whenRun_of_not_run hp] at h
    exact .inr ⟨hp, (Host.Outcome.next.inj h).symm⟩

/-! ## Encodings of results -/

@[simp] theorem boolWord_true : boolWord true = 1#32 := rfl
@[simp] theorem boolWord_false : boolWord false = 0#32 := rfl

theorem wordAligned_iff (a : Word) : wordAligned a = true ↔ a.toNat % 4 = 0 := by simp [wordAligned]

theorem wordAligned_eq_false_iff (a : Word) : wordAligned a = false ↔ a.toNat % 4 ≠ 0 := by simp [wordAligned]

/-- The host decodes the completion word the block wrote (R47, R137). -/
theorem completionOf_completionWord (c : Completion) : completionOf (completionWord c) = some c := by
  cases c with
  | none => rfl
  | lineBreak => rfl
  | data n =>
    have hk : ((n.setWidth 32 <<< 16) ||| 1#32).extractLsb' 0 2 = 1#2 := by
      ext i hi
      have : i = 0 ∨ i = 1 := by omega
      rcases this with rfl | rfl <;> simp
    have hl : ((n.setWidth 32 <<< 16) ||| 1#32).extractLsb' 16 16 = n := by
      ext i hi
      simp [hi, show 16 + i < 32 by omega]
    simp [completionOf, completionWord, hk, hl]

/-! ## Turns of the host and the environment -/

theorem takeEvent_of_enabled {e : Event} {s : State} (h : eventEnabled e s = true) :
    takeEvent e s = eventEffect e s := if_pos h

theorem takeEvent_of_disabled {e : Event} {s : State} (h : eventEnabled e s = false) :
    takeEvent e s = s := by simp [takeEvent, h]

/-- The host is held in `INIT_WAIT` (R13). -/
theorem hostTurn_of_initWait {s : State} (h : s.phase = .initWait) : hostTurn s = .next s := if_pos h

theorem hostTurn_cons {s : State} {h : HostStep} {rest : List HostStep} (hp : s.phase ≠ .initWait)
    (ht : s.hostTodo = h :: rest) : hostTurn s = takeHostStep h { s with hostTodo := rest } := by
  simp [hostTurn, hp, ht]

theorem step_of_nil {s : State} (h : s.schedule = []) : step s = .next s := by simp [step, h]

theorem step_of_host {s : State} {rest : List Turn} (h : s.schedule = .host :: rest) :
    step s = hostTurn { s with schedule := rest } := by simp [step, h]

theorem step_of_event {s : State} {e : Event} {rest : List Turn} (h : s.schedule = .event e :: rest) :
    step s = .next (takeEvent e { s with schedule := rest }) := by simp [step, h]

theorem step_of_powerOn {s : State} {rest : List Turn} (h : s.schedule = .powerOn :: rest) :
    step s = .next (powerOn { s with schedule := rest }) := by simp [step, h]

/-- The host's turn, when it is not held and has a step to take. -/
theorem step_of_hostStep {s : State} {h : HostStep} {todo : List HostStep} {rest : List Turn}
    (hs : s.schedule = .host :: rest) (ht : s.hostTodo = h :: todo) (hp : s.phase ≠ .initWait) :
    step s = takeHostStep h { s with schedule := rest, hostTodo := todo } := by
  rw [step_of_host hs]
  exact hostTurn_cons (s := { s with schedule := rest }) hp ht

/-- Everything a write to `CMD` can do: a reserved word, or the decoded command. -/
theorem issueCommand_cases {w : Word} {s t : State} (h : issueCommand w s = .next t) :
    ((∃ e, decode w = .error e) ∧ t = { s with st := 2#32 }) ∨ (∃ i, decode w = .ok i ∧ exec i s = .next t) := by
  unfold issueCommand at h
  cases hd : decode w with
  | ok i =>
    rw [hd] at h
    exact .inr ⟨i, rfl, h⟩
  | error e =>
    rw [hd] at h
    cases h
    exact .inl ⟨⟨e, rfl⟩, rfl⟩

/-- Everything a step can be: nothing scheduled, the host's turn, an event's turn, power-on. -/
theorem step_cases (s : State) :
    (s.schedule = [] ∧ step s = .next s) ∨
    (∃ rest, s.schedule = .host :: rest ∧ step s = hostTurn { s with schedule := rest }) ∨
    (∃ e rest, s.schedule = .event e :: rest ∧ step s = .next (takeEvent e { s with schedule := rest })) ∨
    (∃ rest, s.schedule = .powerOn :: rest ∧ step s = .next (powerOn { s with schedule := rest })) := by
  unfold step
  split
  · next h => exact .inl ⟨h, rfl⟩
  · next rest h => exact .inr (.inl ⟨rest, h, rfl⟩)
  · next e rest h => exact .inr (.inr (.inl ⟨e, rest, h, rfl⟩))
  · next rest h => exact .inr (.inr (.inr ⟨rest, h, rfl⟩))

/-- Everything the host's turn can be: held, idle, or its next step. -/
theorem hostTurn_cases (s : State) :
    (hostTurn s = .next s ∧ (s.phase = .initWait ∨ s.hostTodo = [])) ∨
    (s.phase ≠ .initWait ∧ ∃ h rest, s.hostTodo = h :: rest ∧
      hostTurn s = takeHostStep h { s with hostTodo := rest }) := by
  by_cases hp : s.phase = .initWait
  · exact .inl ⟨hostTurn_of_initWait hp, .inl hp⟩
  · cases ht : s.hostTodo with
    | nil => exact .inl ⟨by simp [hostTurn, hp, ht], .inr rfl⟩
    | cons h rest => exact .inr ⟨hp, h, rest, rfl, hostTurn_cons hp ht⟩

end Sys2Proof.Machine
end

