-- ==== Sys2Proof/Laws/Commands.lean ====
section
/-! SUPPORT. The meaning each arm of `exec` calls, as an equation in the shared operations, so that no proof unfolds the
dispatch. -/

namespace Sys2Proof.Machine

theorem exec_init (s : State) :
    exec .init s = if s.phase = .reset then .next { s with phase := .initWait } else .next (raise .seq s) := rfl

theorem exec_service (s : State) : exec .service s = whenRun s finish := rfl

theorem exec_tickCount (s : State) :
    exec .tickCount s = whenRun s fun s => finish (writeTick s (currentTick s)) := rfl

theorem exec_tickHrcount (s : State) :
    exec .tickHrcount s = whenRun s fun s => finish (writeTick s (tickOf s.timeNs)) := rfl

theorem exec_tickDelta (s : State) :
    exec .tickDelta s = whenRun s fun s =>
      finish (match tickDelta (lhsTick s) (rhsTick s) s.cfg.tickPeriodNs with
        | some t => writeTick s t
        | none => drawResults s) := rfl

theorem exec_tickCompare (s : State) :
    exec .tickCompare s =
      whenRun s fun s => finish (s.setR0 (BitVec.ofInt 32 (tickCompare (lhsTick s) (rhsTick s)))) := rfl

theorem exec_getEvent (s : State) :
    exec .getEvent s = whenRun s fun s => finish { s with r0 := s.evt.setWidth 32, evt := 0#2 } := rfl

/-- A mode number in 0..4 names a mode (R18). -/
theorem blinkModeOf_of_legal {m : BitVec 3} (h : legalMode m = true) : ∃ mode, blinkModeOf m = some mode := by
  have hall : ∀ m : BitVec 3, legalMode m = true → (blinkModeOf m).isSome = true := by decide
  exact Option.isSome_iff_exists.mp (hall m h)

/-- A mode number in 5..7 names none. -/
theorem blinkModeOf_of_not_legal {m : BitVec 3} (h : 4 < m.toNat) : blinkModeOf m = none := by
  have hall : ∀ m : BitVec 3, 4 < m.toNat → blinkModeOf m = none := by decide
  exact hall m h

theorem exec_setMode {m : BitVec 3} {mode : BlinkMode} (h : blinkModeOf m = some mode) (s : State) :
    exec (.setMode m) s = whenRun s fun s => finish (recomputeLed { s with mode := mode }) := by
  simp only [exec, execSetMode, h]

theorem exec_setMode_illegal {m : BitVec 3} (h : blinkModeOf m = none) (s : State) :
    exec (.setMode m) s = .next (raise .illegal s) := by
  simp only [exec, execSetMode, h]

theorem exec_getMode (s : State) :
    exec .getMode s = whenRun s fun s => finish (s.setR0 (modeNumber s.mode)) := rfl

theorem exec_blinkUpdate (s : State) : exec .blinkUpdate s = whenRun s fun s => finish (recomputeLed s) := rfl

theorem exec_txEnqueue (n : Half) (s : State) :
    exec (.txEnqueue n) s = whenRun s fun s =>
      if wordAligned s.a0 = false then raise .badarg s
      else if s.txBusy then raise .busy (s.setR0 (boolWord false))
      else finish ((latchTx n s).setR0 (boolWord true)) := rfl

theorem exec_txAbort (s : State) : exec .txAbort s = whenRun s fun s => finish { s with txBusy := false } := rfl

theorem exec_txQuery (s : State) :
    exec .txQuery s = whenRun s fun s => finish (s.setR0 (boolWord s.txBusy)) := rfl

theorem exec_rxEnqueue (s : State) :
    exec .rxEnqueue s = whenRun s fun s =>
      if wordAligned s.a0 = false then raise .badarg s
      else if s.rxBusy then raise .busy (s.setR0 (boolWord false))
      else finish ((latchRx s).setR0 (boolWord true)) := rfl

theorem exec_rxAbort (s : State) : exec .rxAbort s = whenRun s fun s => finish { s with rxBusy := false } := rfl

theorem exec_rxQuery (s : State) :
    exec .rxQuery s = whenRun s fun s => finish (s.setR0 (boolWord s.rxBusy)) := rfl

/-- Everything a command can do, said once. The first case covers every status raised without another effect
(`ILLEGAL`, `SEQ`, `BADARG`); all the others but `INIT`'s are in `RUN`. -/
theorem exec_cases {i : Instr} {s t : State} (h : exec i s = .next t) :
    (∃ x, x ≠ .ok ∧ t = { s with st := statusCode x }) ∨
    (i = .init ∧ s.phase = .reset ∧ t = { s with phase := .initWait }) ∨
    (s.phase = .run ∧
      ((i = .service ∧ t = { s with st := 0#32 }) ∨
       ((i = .tickCount ∨ i = .tickHrcount ∨ i = .tickDelta) ∧ ∃ a b d, (d ≠ s.draws → i = .tickDelta) ∧
          t = { s with r0 := a, r1 := b, draws := d, st := 0#32 }) ∨
       ((i = .tickCompare ∨ i = .getMode ∨ i = .txQuery ∨ i = .rxQuery) ∧
          ∃ v, t = { s with r0 := v, st := 0#32 }) ∨
       (i = .getEvent ∧ t = { s with r0 := s.evt.setWidth 32, evt := 0#2, st := 0#32 }) ∨
       (∃ m mode, i = .setMode m ∧ blinkModeOf m = some mode ∧
          t = { s with mode := mode, led := blinkOut mode s.bcntIn, st := 0#32 }) ∨
       (i = .blinkUpdate ∧ t = { s with led := blinkOut s.mode s.bcntIn, st := 0#32 }) ∨
       (∃ n, i = .txEnqueue n ∧ s.a0.toNat % 4 = 0 ∧ s.txBusy = true ∧ t = { s with r0 := 0#32, st := 1#32 }) ∨
       (∃ n, i = .txEnqueue n ∧ s.a0.toNat % 4 = 0 ∧ s.txBusy = false ∧
          t = { s with
            txFaddr := s.a0, txNfrag := n, txFi := 0#16, txBi := 0#16, txBusy := true, r0 := 1#32, st := 0#32 }) ∨
       (i = .txAbort ∧ t = { s with txBusy := false, st := 0#32 }) ∨
       (i = .rxEnqueue ∧ s.a0.toNat % 4 = 0 ∧ s.rxBusy = true ∧ t = { s with r0 := 0#32, st := 1#32 }) ∨
       (i = .rxEnqueue ∧ s.a0.toNat % 4 = 0 ∧ s.rxBusy = false ∧
          t = { s with
            rxDaddr := s.a0
            rxBuf := memRead s.mem s.a0 .four
            rxMax := memReadHalf s.mem (s.a0 + 4#32)
            rxCnt := 0#16
            mem := memWrite s.mem (completionAddr s.a0) .four 0#32
            rxBusy := true
            r0 := 1#32
            st := 0#32 }) ∨
       (i = .rxAbort ∧ t = { s with rxBusy := false, st := 0#32 }))) := by
  have body : ∀ {f : State → State} {P : Prop}, exec i s = whenRun s f → (s.phase = .run → t = f s → P) →
      (∃ x, x ≠ Status.ok ∧ t = { s with st := statusCode x }) ∨ P := by
    intro f P hf hP
    rw [hf] at h
    rcases whenRun_cases h with ⟨hp, ht⟩ | ⟨-, ht⟩
    · exact .inr (hP hp ht)
    · exact .inl ⟨.seq, by decide, ht⟩
  cases i with
  | init =>
    rw [exec_init] at h
    split at h
    · next hp =>
      cases h
      exact .inr (.inl ⟨rfl, hp, rfl⟩)
    · cases h
      exact .inl ⟨.seq, by decide, rfl⟩
  | service =>
    refine body (exec_service s) fun hp ht => .inr ⟨hp, ?_⟩
    exact .inl ⟨rfl, ht⟩
  | tickCount =>
    refine body (exec_tickCount s) fun hp ht => .inr ⟨hp, ?_⟩
    exact .inr (.inl ⟨by simp, _, _, s.draws, by simp, ht⟩)
  | tickHrcount =>
    refine body (exec_tickHrcount s) fun hp ht => .inr ⟨hp, ?_⟩
    exact .inr (.inl ⟨by simp, _, _, s.draws, by simp, ht⟩)
  | tickDelta =>
    refine body (exec_tickDelta s) fun hp ht => .inr ⟨hp, .inr (.inl ⟨by simp, ?_⟩)⟩
    split at ht
    · exact ⟨_, _, s.draws, by simp, ht⟩
    · exact ⟨_, _, s.draws + 2, by simp, ht⟩
  | tickCompare =>
    refine body (exec_tickCompare s) fun hp ht => .inr ⟨hp, ?_⟩
    exact .inr (.inr (.inl ⟨by simp, _, ht⟩))
  | getEvent =>
    refine body (exec_getEvent s) fun hp ht => .inr ⟨hp, ?_⟩
    exact .inr (.inr (.inr (.inl ⟨rfl, ht⟩)))
  | setMode m =>
    cases hm : blinkModeOf m with
    | none =>
      rw [exec_setMode_illegal hm] at h
      cases h
      exact .inl ⟨.illegal, by decide, rfl⟩
    | some mode =>
      refine body (exec_setMode hm s) fun hp ht => .inr ⟨hp, ?_⟩
      exact .inr (.inr (.inr (.inr (.inl ⟨m, mode, rfl, hm, ht⟩))))
  | getMode =>
    refine body (exec_getMode s) fun hp ht => .inr ⟨hp, ?_⟩
    exact .inr (.inr (.inl ⟨by simp, _, ht⟩))
  | blinkUpdate =>
    refine body (exec_blinkUpdate s) fun hp ht => .inr ⟨hp, ?_⟩
    exact .inr (.inr (.inr (.inr (.inr (.inl ⟨rfl, ht⟩)))))
  | txEnqueue n =>
    by_cases ha : wordAligned s.a0 = true
    · have ha4 := (wordAligned_iff s.a0).mp ha
      refine body (exec_txEnqueue n s) fun hp ht => .inr ⟨hp, ?_⟩
      rw [if_neg (by simp [ha])] at ht
      split at ht
      · next hb => exact .inr (.inr (.inr (.inr (.inr (.inr (.inl ⟨n, rfl, ha4, hb, ht⟩))))))
      · next hb =>
        exact .inr (.inr (.inr (.inr (.inr (.inr (.inr (.inl ⟨n, rfl, ha4, by simpa using hb, ht⟩)))))))
    · refine .inl ?_
      rw [exec_txEnqueue] at h
      rcases whenRun_cases h with ⟨-, ht⟩ | ⟨-, ht⟩
      · rw [if_pos (by simpa using ha)] at ht
        exact ⟨.badarg, by decide, ht⟩
      · exact ⟨.seq, by decide, ht⟩
  | txAbort =>
    refine body (exec_txAbort s) fun hp ht => .inr ⟨hp, ?_⟩
    exact .inr (.inr (.inr (.inr (.inr (.inr (.inr (.inr (.inl ⟨rfl, ht⟩))))))))
  | txQuery =>
    refine body (exec_txQuery s) fun hp ht => .inr ⟨hp, ?_⟩
    exact .inr (.inr (.inl ⟨by simp, _, ht⟩))
  | rxEnqueue =>
    by_cases ha : wordAligned s.a0 = true
    · have ha4 := (wordAligned_iff s.a0).mp ha
      refine body (exec_rxEnqueue s) fun hp ht => .inr ⟨hp, ?_⟩
      rw [if_neg (by simp [ha])] at ht
      split at ht
      · next hb => exact .inr (.inr (.inr (.inr (.inr (.inr (.inr (.inr (.inr (.inl ⟨rfl, ha4, hb, ht⟩)))))))))
      · next hb =>
        exact .inr (.inr (.inr (.inr (.inr (.inr (.inr (.inr (.inr (.inr (.inl ⟨rfl, ha4, by simpa using hb, ht⟩))))))))))
    · refine .inl ?_
      rw [exec_rxEnqueue] at h
      rcases whenRun_cases h with ⟨-, ht⟩ | ⟨-, ht⟩
      · rw [if_pos (by simpa using ha)] at ht
        exact ⟨.badarg, by decide, ht⟩
      · exact ⟨.seq, by decide, ht⟩
  | rxAbort =>
    refine body (exec_rxAbort s) fun hp ht => .inr ⟨hp, ?_⟩
    exact .inr (.inr (.inr (.inr (.inr (.inr (.inr (.inr (.inr (.inr (.inr ⟨rfl, ht⟩))))))))))
  | rxQuery =>
    refine body (exec_rxQuery s) fun hp ht => .inr ⟨hp, ?_⟩
    exact .inr (.inr (.inl ⟨by simp, _, ht⟩))

/-- No command faults or is refused. -/
theorem exec_answers_next (i : Instr) (s : State) : ∃ t, exec i s = .next t := by
  have hw : ∀ f, ∃ t, whenRun s f = .next t := by
    intro f
    by_cases hp : s.phase = .run
    · exact ⟨_, whenRun_of_run hp f⟩
    · exact ⟨_, whenRun_of_not_run hp f⟩
  cases i with
  | init =>
    rw [exec_init]
    split <;> exact ⟨_, rfl⟩
  | setMode m =>
    cases hm : blinkModeOf m with
    | none => exact ⟨_, exec_setMode_illegal hm s⟩
    | some mode => exact exec_setMode hm s ▸ hw _
  | service => exact exec_service s ▸ hw _
  | tickCount => exact exec_tickCount s ▸ hw _
  | tickHrcount => exact exec_tickHrcount s ▸ hw _
  | tickDelta => exact exec_tickDelta s ▸ hw _
  | tickCompare => exact exec_tickCompare s ▸ hw _
  | getEvent => exact exec_getEvent s ▸ hw _
  | getMode => exact exec_getMode s ▸ hw _
  | blinkUpdate => exact exec_blinkUpdate s ▸ hw _
  | txEnqueue n => exact exec_txEnqueue n s ▸ hw _
  | txAbort => exact exec_txAbort s ▸ hw _
  | txQuery => exact exec_txQuery s ▸ hw _
  | rxEnqueue => exact exec_rxEnqueue s ▸ hw _
  | rxAbort => exact exec_rxAbort s ▸ hw _
  | rxQuery => exact exec_rxQuery s ▸ hw _

end Sys2Proof.Machine
end

