-- ==== Sys2Proof/Laws/Events.lean ====
section
/-! SUPPORT. Each event's turn as one record update whose conditions read only the event's own fields: enabled or not,
every other field is unchanged by `rfl`. -/

namespace Sys2Proof.Machine

theorem takeEvent_tickAdv (s : State) : takeEvent .tickAdv s = { s with
    timeNs := if s.phase = .run then (s.timeNs + s.cfg.hrResNs) % s.cfg.tickPeriodNs else s.timeNs } := by
  by_cases h : s.phase = .run <;> simp [takeEvent, eventEnabled, eventEffect, tickAdv, h]

theorem takeEvent_edge (lvl : Bool) (s : State) : takeEvent (.edge lvl) s = { s with
    btn := if s.phase = .run then buttonOf lvl else s.btn
    evt := if s.phase = .run then s.evt ||| edgeBit lvl else s.evt } := by
  by_cases h : s.phase = .run <;> simp [takeEvent, eventEnabled, eventEffect, edge, h]

theorem takeEvent_bcntSet (v : Word) (s : State) : takeEvent (.bcntSet v) s = { s with bcntIn := v } := rfl

theorem takeEvent_hwrdySet (v : Bool) (s : State) : takeEvent (.hwrdySet v) s = { s with hwReady := v } := rfl

theorem takeEvent_rxByte (b : Byte) (s : State) : takeEvent (.rxByte b) s = { s with
    mem := if s.phase = .run ∧ s.rxBusy = true ∧ s.rxCnt.toNat < s.rxMax.toNat then
      writeByte s.mem (s.rxBuf + s.rxCnt.setWidth 32).toNat b else s.mem
    rxCnt := if s.phase = .run ∧ s.rxBusy = true ∧ s.rxCnt.toNat < s.rxMax.toNat then s.rxCnt + 1#16
      else s.rxCnt } := by
  by_cases h : s.phase = .run ∧ s.rxBusy = true ∧ s.rxCnt.toNat < s.rxMax.toNat
  · rw [takeEvent_of_enabled (by simpa [eventEnabled, and_assoc] using h)]
    simp only [eventEffect, rxByte, rxByteAddr, if_pos h]
  · rw [takeEvent_of_disabled (by simpa [eventEnabled, and_assoc] using h)]
    simp only [if_neg h]

theorem takeEvent_rxDone (s : State) : takeEvent .rxDone s = { s with
    mem := if s.phase = .run ∧ s.rxBusy = true ∧ 1 ≤ s.rxCnt.toNat then
      memWrite s.mem (completionAddr s.rxDaddr) .four (completionWord (.data s.rxCnt)) else s.mem
    rxBusy := if s.phase = .run ∧ s.rxBusy = true ∧ 1 ≤ s.rxCnt.toNat then false else s.rxBusy } := by
  by_cases h : s.phase = .run ∧ s.rxBusy = true ∧ 1 ≤ s.rxCnt.toNat
  · rw [takeEvent_of_enabled (by simpa [eventEnabled, and_assoc] using h)]
    simp only [eventEffect, rxDone, completeRx, if_pos h]
  · rw [takeEvent_of_disabled (by simpa [eventEnabled, and_assoc] using h)]
    simp only [if_neg h]

theorem takeEvent_rxBreak (s : State) : takeEvent .rxBreak s = { s with
    mem := if s.cfg.hasBreak = true ∧ s.phase = .run ∧ s.rxBusy = true then
      memWrite s.mem (completionAddr s.rxDaddr) .four (completionWord .lineBreak) else s.mem
    rxBusy := if s.cfg.hasBreak = true ∧ s.phase = .run ∧ s.rxBusy = true then false else s.rxBusy } := by
  by_cases h : s.cfg.hasBreak = true ∧ s.phase = .run ∧ s.rxBusy = true
  · rw [takeEvent_of_enabled (by simpa [eventEnabled, and_assoc] using h)]
    simp only [eventEffect, rxBreak, completeRx, if_pos h]
  · rw [takeEvent_of_disabled (by simpa [eventEnabled, and_assoc] using h)]
    simp only [if_neg h]

/-- The three receive events change only memory, `RX_BUSY` and `RX_CNT`. -/
theorem takeEvent_serRx {e : Event} (he : e = .rxDone ∨ e = .rxBreak ∨ ∃ b, e = .rxByte b) (s : State) :
    ∃ m busy cnt, takeEvent e s = { s with mem := m, rxBusy := busy, rxCnt := cnt } := by
  rcases he with rfl | rfl | ⟨b, rfl⟩
  · exact ⟨_, _, s.rxCnt, takeEvent_rxDone s⟩
  · exact ⟨_, _, s.rxCnt, takeEvent_rxBreak s⟩
  · exact ⟨_, s.rxBusy, _, takeEvent_rxByte b s⟩

/-- A transmit step changes only `TX_BUSY`, `TX_FI`, `TX_BI` and `WIRE`. -/
theorem takeEvent_txStep (s : State) :
    ∃ busy fi bi w, takeEvent .txStep s = { s with txBusy := busy, txFi := fi, txBi := bi, wire := w } := by
  cases h : eventEnabled .txStep s with
  | false => exact ⟨s.txBusy, s.txFi, s.txBi, s.wire, takeEvent_of_disabled h⟩
  | true =>
    rw [takeEvent_of_enabled h]
    simp only [eventEffect, txStep]
    split
    · exact ⟨false, s.txFi, s.txBi, s.wire, rfl⟩
    · split
      · exact ⟨s.txBusy, s.txFi + 1#16, 0#16, s.wire, rfl⟩
      · exact ⟨s.txBusy, s.txFi, s.txBi + 1#16, _, rfl⟩

end Sys2Proof.Machine
end

