-- ==== Sys2Proof/Laws/Memory.lean ====
section
/-! SUPPORT. Memory: read after write, what a write leaves alone, and the canonical form (`20_memory.md` R40 to R44). -/

namespace Sys2Proof.Machine

/-! ## One byte -/

theorem readByte_of_lt {m : Memory} {a : Nat} (h : ∀ c ∈ m, a < c.1) : readByte m a = unlistedByte := by
  induction m with
  | nil => rfl
  | cons c rest ih =>
    have hc := h c (by simp)
    rw [readByte, if_neg (by omega)]
    exact ih fun d hd => h d (by simp [hd])

theorem readByte_cellOf_append (a : Nat) (b : Byte) (m : Memory) (x : Nat) :
    readByte (cellOf a b ++ m) x = if x = a ∧ b ≠ unlistedByte then b else readByte m x := by
  unfold cellOf
  by_cases hb : b = unlistedByte
  · simp [hb]
  · by_cases hx : x = a
    · subst hx; simp [readByte, hb]
    · simp [readByte, hb, hx, Ne.symm hx]

/-- The whole of what a one-byte write does to what is read. -/
theorem readByte_writeByte {m : Memory} (h : Memory.wf m) (a : Nat) (b : Byte) (x : Nat) :
    readByte (writeByte m a b) x = if x = a then b else readByte m x := by
  induction m with
  | nil =>
    have := readByte_cellOf_append a b [] x
    simp only [List.append_nil] at this
    rw [writeByte, this]
    by_cases hx : x = a <;> by_cases hb : b = unlistedByte <;> simp [hx, hb, readByte]
  | cons c rest ih =>
    obtain ⟨hp, hm⟩ := h
    obtain ⟨hlt, hp'⟩ := List.pairwise_cons.mp hp
    have hrest : Memory.wf rest := ⟨hp', fun d hd => hm d (by simp [hd])⟩
    rw [writeByte]
    split
    · next hac =>
      rw [readByte_cellOf_append]
      by_cases hx : x = a
      · by_cases hb : b = unlistedByte
        · have : readByte (c :: rest) x = unlistedByte := by
            refine readByte_of_lt fun d hd => ?_
            rcases List.mem_cons.mp hd with rfl | hd
            · omega
            · have := hlt d hd; omega
          simp [hx, hb, ← this]
        · simp [hx, hb]
      · simp [hx]
    · next hac =>
      split
      · next hca =>
        rw [readByte_cellOf_append]
        by_cases hx : x = a
        · by_cases hb : b = unlistedByte
          · have : readByte rest x = unlistedByte := by
              refine readByte_of_lt fun d hd => ?_
              have := hlt d hd
              omega
            simp [hx, hb, ← this]
          · simp [hx, hb]
        · have : ¬ c.1 = x := by omega
          simp [hx, readByte, this]
      · next hca =>
        rw [readByte, readByte, ih hrest]
        by_cases hx : c.1 = x
        · have : ¬ x = a := by omega
          simp [hx, this]
        · simp [hx]

theorem mem_writeByte {m : Memory} {a : Nat} {b : Byte} {c : Host.Cell} (h : c ∈ writeByte m a b) :
    (c = (a, b) ∧ b ≠ unlistedByte) ∨ c ∈ m := by
  have hcell : ∀ {t : Memory}, c ∈ cellOf a b ++ t → (c = (a, b) ∧ b ≠ unlistedByte) ∨ c ∈ t := by
    intro t ht
    unfold cellOf at ht
    split at ht
    · exact .inr (by simpa using ht)
    · next hb =>
      rcases List.mem_append.mp ht with h1 | h1
      · exact .inl ⟨by simpa using h1, hb⟩
      · exact .inr h1
  induction m with
  | nil => exact hcell (by simpa [writeByte] using h)
  | cons d rest ih =>
    rw [writeByte] at h
    split at h
    · exact hcell h
    · split at h
      · rcases hcell h with h1 | h1
        · exact .inl h1
        · exact .inr (by simp [h1])
      · rcases List.mem_cons.mp h with h1 | h1
        · exact .inr (by simp [h1])
        · rcases ih h1 with h2 | h2
          · exact .inl h2
          · exact .inr (by simp [h2])

/-- A write keeps the canonical form. -/
theorem wf_writeByte {m : Memory} (h : Memory.wf m) {a : Nat} (ha : a < 2 ^ 32) (b : Byte) :
    Memory.wf (writeByte m a b) := by
  refine ⟨?_, fun c hc => ?_⟩
  · obtain ⟨hp, -⟩ := h
    have hcell : ∀ {t : Memory}, t.Pairwise (fun c d => c.1 < d.1) → (∀ d ∈ t, a < d.1) →
        (cellOf a b ++ t).Pairwise (fun c d => c.1 < d.1) := by
      intro t ht hat
      unfold cellOf
      split
      · simpa using ht
      · exact List.pairwise_cons.mpr ⟨fun d hd => hat d hd, ht⟩
    induction m with
    | nil => simpa [writeByte] using hcell (t := []) List.Pairwise.nil (by simp)
    | cons d rest ih =>
      obtain ⟨hlt, hp'⟩ := List.pairwise_cons.mp hp
      rw [writeByte]
      split
      · next had =>
        refine hcell hp fun e he => ?_
        rcases List.mem_cons.mp he with rfl | he
        · exact had
        · have := hlt e he; omega
      · next had =>
        split
        · next hda =>
          refine hcell hp' fun e he => ?_
          have := hlt e he
          omega
        · next hda =>
          refine List.pairwise_cons.mpr ⟨fun e he => ?_, ih hp'⟩
          rcases mem_writeByte he with ⟨rfl, -⟩ | he
          · show d.1 < a
            omega
          · exact hlt e he
  · rcases mem_writeByte hc with ⟨rfl, hb⟩ | hc
    · exact ⟨ha, hb⟩
    · exact h.2 c hc

/-! ## Several bytes -/

theorem wf_writeLE {m : Memory} (h : Memory.wf m) (a : Word) (n v : Nat) : Memory.wf (writeLE m a n v) := by
  induction n generalizing m a v with
  | zero => exact h
  | succ n ih => exact ih (wf_writeByte h a.isLt _) _ _

theorem wf_memWrite {m : Memory} (h : Memory.wf m) (a : Word) (n : AccessSize) (v : Word) :
    Memory.wf (memWrite m a n v) := wf_writeLE h a _ _

theorem readByte_writeLE_of_not_mem {m : Memory} (h : Memory.wf m) {a : Word} {n v x : Nat}
    (hx : x ∉ byteAddrs a n) : readByte (writeLE m a n v) x = readByte m x := by
  induction n generalizing m a v with
  | zero => rfl
  | succ n ih =>
    simp only [byteAddrs, List.mem_cons, not_or] at hx
    rw [writeLE, ih (wf_writeByte h a.isLt _) hx.2, readByte_writeByte h, if_neg hx.1]

/-- The frame of `MemWrite`: every byte outside the `n` bytes from `a` upward reads as before. -/
theorem readByte_memWrite_of_not_mem {m : Memory} (h : Memory.wf m) {a : Word} {n : AccessSize} {v : Word} {x : Nat}
    (hx : x ∉ byteAddrs a (sizeBytes n)) : readByte (memWrite m a n v) x = readByte m x :=
  readByte_writeLE_of_not_mem h hx

theorem mem_byteAddrs {a : Word} {n x : Nat} : x ∈ byteAddrs a n ↔ ∃ i < n, x = (a.toNat + i) % 2 ^ 32 := by
  induction n generalizing a with
  | zero => simp [byteAddrs]
  | succ n ih =>
    simp only [byteAddrs, List.mem_cons, ih, BitVec.toNat_add]
    have ha := a.isLt
    constructor
    · rintro (rfl | ⟨i, hi, rfl⟩)
      · exact ⟨0, by omega, by omega⟩
      · refine ⟨i + 1, by omega, ?_⟩
        norm_num
        omega
    · rintro ⟨i, hi, rfl⟩
      cases i with
      | zero => left; omega
      | succ i =>
        refine .inr ⟨i, by omega, ?_⟩
        norm_num
        omega

/-- Two memories that agree on the bytes read give the same number. -/
theorem readLE_congr {m m' : Memory} {a : Word} {n : Nat} (h : ∀ x ∈ byteAddrs a n, readByte m x = readByte m' x) :
    readLE m a n = readLE m' a n := by
  induction n generalizing a with
  | zero => rfl
  | succ n ih =>
    rw [readLE, readLE, h a.toNat (by simp [byteAddrs]), ih fun x hx => h x (by simp [byteAddrs, hx])]

/-- The numbers the four bytes of a word carry are below 256^n. -/
theorem readLE_lt (m : Memory) (a : Word) (n : Nat) : readLE m a n < 256 ^ n := by
  induction n generalizing a with
  | zero => simp [readLE]
  | succ n ih =>
    have h1 := ih (a + 1#32)
    have h2 : (readByte m a.toNat).toNat < 256 := (readByte m a.toNat).isLt
    rw [readLE, pow_succ]
    omega

/-- Read after write (R42, R43): the `n` bytes written are read back, without the bits above `8n`. -/
theorem readLE_writeLE {m : Memory} (h : Memory.wf m) (a : Word) {n : Nat} (hn : n ≤ 2 ^ 32) (v : Nat) :
    readLE (writeLE m a n v) a n = v % 256 ^ n := by
  induction n generalizing m a v with
  | zero => simp [readLE, Nat.mod_one]
  | succ n ih =>
    have hw := wf_writeByte h a.isLt (BitVec.ofNat 8 v)
    have hna : a.toNat ∉ byteAddrs (a + 1#32) n := by
      intro hx
      obtain ⟨i, hi, hx⟩ := mem_byteAddrs.mp hx
      have ha := a.isLt
      simp only [BitVec.toNat_add, BitVec.toNat_ofNat] at hx
      norm_num at hx hn
      omega
    rw [readLE, writeLE, ih hw _ (by omega), readByte_writeLE_of_not_mem hw hna, readByte_writeByte h, if_pos rfl,
      BitVec.toNat_ofNat, show 256 ^ (n + 1) = 256 * 256 ^ n from pow_succ' 256 n, Nat.mod_mul]

end Sys2Proof.Machine
end

