-- ==== Sys2Proof/Laws/PerInstr.lean ====
section
/-! SUPPORT. Facts about every command as syntax, one lemma per constructor. -/

namespace Sys2Proof.Laws.EncodesInItsRow

/-- The `mask` and `match` columns of the command's row (R62; `opcode_table.json`). -/
def row (i : Instr) : Word × Word :=
  match i with
  | .init => (0xFFFFFFFF#32, 0x01000000#32)
  | .service => (0xFFFFFFFF#32, 0x02000000#32)
  | .tickCount => (0xFFFFFFFF#32, 0x10000000#32)
  | .tickHrcount => (0xFFFFFFFF#32, 0x11000000#32)
  | .tickDelta => (0xFFFFFFFF#32, 0x12000000#32)
  | .tickCompare => (0xFFFFFFFF#32, 0x13000000#32)
  | .getEvent => (0xFFFFFFFF#32, 0x20000000#32)
  | .setMode _ => (0xFFFFFFF8#32, 0x30000000#32)
  | .getMode => (0xFFFFFFFF#32, 0x31000000#32)
  | .blinkUpdate => (0xFFFFFFFF#32, 0x32000000#32)
  | .txEnqueue _ => (0xFFFF0000#32, 0x40000000#32)
  | .txAbort => (0xFFFFFFFF#32, 0x41000000#32)
  | .txQuery => (0xFFFFFFFF#32, 0x42000000#32)
  | .rxEnqueue => (0xFFFFFFFF#32, 0x48000000#32)
  | .rxAbort => (0xFFFFFFFF#32, 0x49000000#32)
  | .rxQuery => (0xFFFFFFFF#32, 0x4A000000#32)

/-- The command's word matches its row of the table, whatever its field (R62, R63). -/
def Statement (i : Instr) : Prop := encode i &&& (row i).1 = (row i).2

theorem init : Statement .init := by unfold Statement; decide
theorem service : Statement .service := by unfold Statement; decide
theorem tickCount : Statement .tickCount := by unfold Statement; decide
theorem tickHrcount : Statement .tickHrcount := by unfold Statement; decide
theorem tickDelta : Statement .tickDelta := by unfold Statement; decide
theorem tickCompare : Statement .tickCompare := by unfold Statement; decide
theorem getEvent : Statement .getEvent := by unfold Statement; decide
theorem setMode (m : BitVec 3) : Statement (.setMode m) := by
  unfold Statement
  revert m
  decide
theorem getMode : Statement .getMode := by unfold Statement; decide
theorem blinkUpdate : Statement .blinkUpdate := by unfold Statement; decide
theorem txEnqueue (n : Half) : Statement (.txEnqueue n) := by
  unfold Statement
  refine BitVec.eq_of_getLsbD_eq fun i hi => ?_
  interval_cases i <;> simp [encode, opcode, operandField, row]
theorem txAbort : Statement .txAbort := by unfold Statement; decide
theorem txQuery : Statement .txQuery := by unfold Statement; decide
theorem rxEnqueue : Statement .rxEnqueue := by unfold Statement; decide
theorem rxAbort : Statement .rxAbort := by unfold Statement; decide
theorem rxQuery : Statement .rxQuery := by unfold Statement; decide

end Sys2Proof.Laws.EncodesInItsRow
end

