-- ==== Sys2Proof/Laws/Run.lean ====
section
/-! SUPPORT. Runs of the machine, one step and several steps at a time. -/

namespace Sys2Proof.Machine

/-- The host's `run` at this machine. -/
abbrev runFor (k : Nat) (s : State) : Host.Outcome State Fault Refusal := Host.Core.run Sys2Proof.core k s

@[simp] theorem runFor_zero (s : State) : runFor 0 s = .next s := rfl

theorem runFor_succ_of_next {k : Nat} {s t : State} (h : step s = .next t) : runFor (k + 1) s = runFor k t := by
  have hc : Sys2Proof.core.step s = .next t := h
  simp only [runFor, Host.Core.run, hc]
  rfl

/-- A run of `j + k` steps is a run of `k` steps after a run of `j`. -/
theorem runFor_add {j k : Nat} {s t : State} (h : runFor j s = .next t) : runFor (j + k) s = runFor k t := by
  induction j generalizing s with
  | zero =>
    cases h
    rw [Nat.zero_add]
  | succ j ih =>
    cases hs : step s with
    | next u =>
      rw [runFor_succ_of_next hs] at h
      rw [Nat.succ_add, runFor_succ_of_next hs]
      exact ih h
    | fault r =>
      have hc : Sys2Proof.core.step s = .fault r := hs
      simp only [runFor, Host.Core.run, hc] at h
      cases h
    | refused r =>
      have hc : Sys2Proof.core.step s = .refused r := hs
      simp only [runFor, Host.Core.run, hc] at h
      cases h

end Sys2Proof.Machine
end

