-- ==== Sys2Proof/Laws/Tick.lean ====
section
/-! SUPPORT. Tick arithmetic: `tick_of` and `ns_of` are inverse on the range of R85, and what `tick_delta` is. -/

namespace Sys2Proof.Machine

@[simp] theorem writeTick_eq (s : State) (t : Tick) : writeTick s t = { s with r0 := t.sec, r1 := t.nsec } := rfl

theorem tickOf_nsec (n : Nat) : (tickOf n).nsec.toNat = n % nsPerSec := by
  simp only [tickOf, BitVec.toNat_ofNat, nsPerSec]
  omega

/-- `nsec <= 999_999_999` by construction (R15, R85). -/
theorem tickOf_valid (n : Nat) : tickValid (tickOf n) = true := by
  have h := tickOf_nsec n
  simp only [nsPerSec] at h
  simp only [tickValid, decide_eq_true_eq]
  omega

/-- On the range for which `tick_of` is defined, `ns_of` undoes it. -/
theorem nsOf_tickOf {n : Nat} (h : n < 2 ^ 32 * nsPerSec) : nsOf (tickOf n) = n := by
  have h1 := tickOf_nsec n
  have h2 : (tickOf n).sec.toNat = n / nsPerSec := by
    simp only [tickOf, BitVec.toNat_ofNat, nsPerSec] at *
    omega
  simp only [nsOf, h1, h2, nsPerSec]
  omega

/-- A valid Tick is below the range's end. -/
theorem nsOf_lt {t : Tick} (h : tickValid t = true) : nsOf t < 2 ^ 32 * nsPerSec := by
  have h1 := t.sec.isLt
  simp only [tickValid, decide_eq_true_eq] at h
  simp only [nsOf, nsPerSec]
  omega

/-- The first case of R83: `lhs` is not earlier. -/
theorem tickDelta_of_le {l r : Tick} {p : Nat} (hl : tickValid l = true) (hr : tickValid r = true)
    (h : nsOf r ≤ nsOf l) : tickDelta l r p = some (tickOf (nsOf l - nsOf r)) := by
  have hd : (deltaNs l r p).toNat = nsOf l - nsOf r := by
    unfold deltaNs
    generalize nsOf l = x at *
    generalize nsOf r = y at *
    split <;> omega
  rw [tickDelta, if_pos ⟨hl, hr, .inl h⟩, hd]

/-- The second case of R83: `lhs` is earlier by less than a period, and one wraparound is corrected. -/
theorem tickDelta_of_wrap {l r : Tick} {p : Nat} (hl : tickValid l = true) (hr : tickValid r = true)
    (h : nsOf l < nsOf r) (hp : nsOf r < nsOf l + p) : tickDelta l r p = some (tickOf (nsOf l + p - nsOf r)) := by
  have hd : (deltaNs l r p).toNat = nsOf l + p - nsOf r := by
    unfold deltaNs
    generalize nsOf l = x at *
    generalize nsOf r = y at *
    split <;> omega
  rw [tickDelta, if_pos ⟨hl, hr, .inr hp⟩, hd]

/-- The remaining cases of R83 and R86: no TickDelta. -/
theorem tickDelta_eq_none_iff {l r : Tick} {p : Nat} (hp : 0 < p) :
    tickDelta l r p = none ↔ tickValid l = false ∨ tickValid r = false ∨ nsOf l + p ≤ nsOf r := by
  unfold tickDelta
  generalize nsOf l = x
  generalize nsOf r = y
  cases tickValid l <;> cases tickValid r <;> simp
  omega

end Sys2Proof.Machine
end

