-- ==== Sys2Proof/Tests/Slice0.lean ====
section
/-! SUPPORT. Tests of the model against the spec: words written out bit by bit from R61 and R62, one-step vectors `V<n>`
and `S<n>` of `spec/95_test_vectors.md`, and a witness for the hypotheses of each statement. Expected results come from
the spec; where a test writes a field the vector does not mention, it is the field at reset. -/

namespace Sys2Proof.Tests

open Sys2Proof Sys2Proof.Machine

/-! ## Small states -/

/-- "Booted" of the vectors: after `HWRDY_SET(1)`, `INIT`, `INIT_DONE` from reset. -/
def booted : State := { State.reset with phase := .run, hwReady := true }

/-- `INIT` was issued on hardware that is not ready (V10). -/
def waiting : State := { State.reset with phase := .initWait }

/-- The period of 60 s that V39 and V40 use. -/
def shortPeriod : Config := { Config.reference with tickPeriodNs := 60 * nsPerSec }

/-- Booted, with tick operands. -/
def ticks (a0 a1 a2 a3 : Word) : State := { booted with a0 := a0, a1 := a1, a2 := a2, a3 := a3 }

/-- The transmit memory of section 2.5. -/
def txMem : Memory :=
  [(0x20000101, 0x02#8), (0x20000103, 0x20#8), (0x20000104, 0x02#8), (0x20000108, 0x10#8), (0x20000109, 0x02#8),
   (0x2000010B, 0x20#8), (0x2000010C, 0x01#8), (0x20000200, 0x48#8), (0x20000201, 0x69#8), (0x20000210, 0x21#8)]

/-- The receive memory of section 2.5. -/
def rxMem : Memory :=
  [(0x20000301, 0x04#8), (0x20000303, 0x20#8), (0x20000304, 0x08#8), (0x20000308, 0xEF#8), (0x20000309, 0xBE#8),
   (0x2000030A, 0xAD#8), (0x2000030B, 0xDE#8)]

/-- Before V80. -/
def txReady : State := { booted with a0 := 0x20000100#32, mem := txMem }

/-- After V80. -/
def sending : State :=
  { txReady with txFaddr := 0x20000100#32, txNfrag := 2#16, txBusy := true, r0 := 1#32 }

/-- Before V90. -/
def rxReady : State := { booted with a0 := 0x20000300#32, mem := rxMem }

/-- After V90. -/
def receiving : State :=
  { rxReady with
    rxDaddr := 0x20000300#32
    rxBuf := 0x20000400#32
    rxMax := 8#16
    rxBusy := true
    r0 := 1#32
    mem := [(0x20000301, 0x04#8), (0x20000303, 0x20#8), (0x20000304, 0x08#8)] }

/-- After V92: the first five bytes are in. -/
def received : State :=
  { receiving with
    rxCnt := 5#16
    mem := receiving.mem ++ [(0x20000400, 0x48#8), (0x20000401, 0x45#8), (0x20000402, 0x4C#8), (0x20000403, 0x4C#8),
      (0x20000404, 0x4F#8)] }

/-- The host moves next, with `h`. -/
def hostAt (h : HostStep) (s : State) : State := { s with schedule := [.host], hostTodo := [h] }

/-- The event `e` moves next. -/
def eventAt (e : Event) (s : State) : State := { s with schedule := [.event e] }

/-- The next state, where there is one. -/
def after (o : Host.Outcome State Fault Refusal) : Option State :=
  match o with
  | .next t => some t
  | .fault _ => none
  | .refused _ => none

/-- The host writes the word `w` to `CMD`; what it finds then. -/
def issue (w : Word) (s : State) : Option State := after (step (hostAt (.wr 0 w) s))

/-! ## Well-formedness: the one check is the mode's range -/

theorem test_wf_refuses_modes_above_four :
    (Instr.setMode 5#3).wf = false ∧ (Instr.setMode 6#3).wf = false ∧ (Instr.setMode 7#3).wf = false := by decide

theorem test_wf_admits_mode_four_and_any_fragment_count :
    (Instr.setMode 4#3).wf = true ∧ (Instr.txEnqueue 0xFFFF#16).wf = true ∧ (Instr.txEnqueue 0#16).wf = true := by decide

/-! ## Decoding, words from the table of R62 -/

theorem test_decode_init_service :
    decode 0b00000001000000000000000000000000#32 = .ok .init ∧
    decode 0b00000010000000000000000000000000#32 = .ok .service := by decide

theorem test_decode_ticks :
    decode 0b00010000000000000000000000000000#32 = .ok .tickCount ∧
    decode 0b00010001000000000000000000000000#32 = .ok .tickHrcount ∧
    decode 0b00010010000000000000000000000000#32 = .ok .tickDelta ∧
    decode 0b00010011000000000000000000000000#32 = .ok .tickCompare := by decide

theorem test_decode_event_blink :
    decode 0b00100000000000000000000000000000#32 = .ok .getEvent ∧
    decode 0b00110000000000000000000000000100#32 = .ok (.setMode 4#3) ∧
    decode 0b00110001000000000000000000000000#32 = .ok .getMode ∧
    decode 0b00110010000000000000000000000000#32 = .ok .blinkUpdate := by decide

theorem test_decode_transmit :
    decode 0b01000000000000001000000000000001#32 = .ok (.txEnqueue 0x8001#16) ∧
    decode 0b01000001000000000000000000000000#32 = .ok .txAbort ∧
    decode 0b01000010000000000000000000000000#32 = .ok .txQuery := by decide

theorem test_decode_receive :
    decode 0b01001000000000000000000000000000#32 = .ok .rxEnqueue ∧
    decode 0b01001001000000000000000000000000#32 = .ok .rxAbort ∧
    decode 0b01001010000000000000000000000000#32 = .ok .rxQuery := by decide

/-- V2 to V8: reserved opcodes, must-be-0 bits, modes that name nothing. -/
theorem test_decode_rejects_reserved_words :
    decode 0x00000000#32 = .error .reservedOpcode ∧ decode 0xFF000000#32 = .error .reservedOpcode ∧
    decode 0x43000000#32 = .error .reservedOpcode ∧ decode 0x4B000000#32 = .error .reservedOpcode ∧
    decode 0x03000000#32 = .error .reservedOpcode ∧ decode 0x21000000#32 = .error .reservedOpcode ∧
    decode 0x10000001#32 = .error .mustBeZeroBits ∧ decode 0x30000008#32 = .error .mustBeZeroBits ∧
    decode 0x40010000#32 = .error .mustBeZeroBits ∧ decode 0x30000005#32 = .error .reservedMode := by decide

/-- The words of P4 and S5. -/
theorem test_encode_fields :
    encode (.txEnqueue 2#16) = 0x40000002#32 ∧ encode (.setMode 1#3) = 0x30000001#32 ∧
    encode .rxQuery = 0x4A000000#32 := by decide

/-! ## Sequencing -/

theorem test_fetch_word_runs_next :
    (after (step (State.reset.withFetchWord 32 0x10000000))).map (·.st) = some 3#32 ∧
    (after (step (State.reset.withFetchWord 32 0x01000000))).map (·.phase) = some .initWait := by decide

/-- V1 and V2. -/
theorem test_seq_and_illegal_before_init :
    (issue 0x10000000#32 State.reset).map (fun t => (t.st, t.r0, t.r1)) = some (3#32, 0#32, 0#32) ∧
    (issue 0x00000000#32 State.reset).map (·.st) = some 2#32 := by decide

/-- V9 and V10. -/
theorem test_init :
    (issue 0x01000000#32 { sending with timeNs := 7000, evt := 3#2 }).map
      (fun t => (t.st, t.timeNs, t.evt, t.txBusy)) = some (3#32, 7000, 3#2, true) ∧
    (issue 0x01000000#32 State.reset).map (fun t => (t.st, t.phase)) = some (0#32, .initWait) := by decide

/-- V11 and V12. -/
theorem test_init_done :
    (after (step (eventAt .initDone { waiting with hwReady := true, st := 3#32 }))).map (fun t => (t.phase, t.st)) =
      some (.run, 0#32) ∧
    (after (step (eventAt .initDone waiting))).map (·.phase) = some .initWait ∧
    (issue 0x02000000#32 waiting).map (·.hostTodo) = some [.wr 0 0x02000000#32] := by decide

/-- V15. -/
theorem test_service : (issue 0x02000000#32 { booted with st := 3#32 }).map (fun t => { t with hostTodo := [] }) =
    some booted := by decide

/-- V14. -/
theorem test_port :
    (after (step (hostAt (.wr 1 7#32) booted))).map (·.st) = some 0#32 ∧
    (after (step (hostAt (.wr 6 9#32) booted))).map (·.r0) = some 0#32 ∧
    (after (step (hostAt (.rd 0) { booted with st := 4#32 }))).map (·.hostReads) = some [0#32] ∧
    (after (step (hostAt (.wr 5 9#32) booted))).map (fun t => (t.a2, t.a3)) = some (0#32, 9#32) := by decide

/-- V16 and V56. -/
theorem test_disabled_events :
    [Event.edge true, .tickAdv, .rxByte 0x41#8].all (fun e => takeEvent e State.reset == State.reset) := by decide

/-! ## TickClock -/

/-- V22 and V23. -/
theorem test_tick_count :
    (issue 0x10000000#32 { booted with timeNs := 5123456000 }).map (fun t => (t.r0, t.r1)) =
      some (5#32, 123000000#32) ∧
    (issue 0x10000000#32 { booted with timeNs := 2 ^ 32 * nsPerSec - 1000 }).map (fun t => (t.r0, t.r1)) =
      some (4294967295#32, 999000000#32) := by decide

theorem test_tick_hrcount :
    (issue 0x11000000#32 { booted with timeNs := 5123456000 }).map (fun t => (t.r0, t.r1)) =
      some (5#32, 123456000#32) ∧
    (issue 0x11000000#32 { booted with timeNs := 2 ^ 32 * nsPerSec - 1000 }).map (fun t => (t.r0, t.r1)) =
      some (4294967295#32, 999999000#32) := by decide

/-- V24 and V25. -/
theorem test_tick_adv_wraps :
    (takeEvent .tickAdv { booted with timeNs := 2 ^ 32 * nsPerSec - 1000 }).timeNs = 0 ∧
    (takeEvent .tickAdv { booted with timeNs := 59999999000, cfg := shortPeriod }).timeNs = 0 := by decide

/-- V32, V34 and V36. -/
theorem test_tick_delta :
    (issue 0x12000000#32 (ticks 5#32 100#32 4#32 999999900#32)).map (fun t => (t.r0, t.r1)) = some (0#32, 200#32) ∧
    (issue 0x12000000#32 (ticks 0#32 100#32 4294967295#32 999999900#32)).map (fun t => (t.r0, t.r1)) =
      some (0#32, 200#32) ∧
    (issue 0x12000000#32 (ticks 3#32 200#32 10#32 500#32)).map (fun t => (t.r0, t.r1)) =
      some (4294967288#32, 999999700#32) := by decide

/-- V39, V40, and V41, V42 where only the status and the frame are said. -/
theorem test_tick_delta_periods :
    (issue 0x12000000#32 { ticks 1#32 0#32 59#32 0#32 with cfg := shortPeriod }).map (fun t => (t.r0, t.r1)) =
      some (2#32, 0#32) ∧
    (issue 0x12000000#32 { ticks 0#32 0#32 59#32 999999999#32 with cfg := shortPeriod }).map
      (fun t => (t.r0, t.r1)) = some (0#32, 1#32) ∧
    (issue 0x12000000#32 (ticks 0#32 1000000000#32 0#32 0#32)).map (fun t => (t.st, t.draws)) = some (0#32, 2) ∧
    (issue 0x12000000#32 { ticks 0#32 0#32 100#32 0#32 with cfg := shortPeriod }).map (fun t => (t.st, t.a2)) =
      some (0#32, 100#32) := by decide

/-- V30, V31, V34, V43. -/
theorem test_tick_compare :
    (issue 0x13000000#32 (ticks 7#32 0#32 7#32 0#32)).map (·.r0) = some 0#32 ∧
    (issue 0x13000000#32 (ticks 10#32 500#32 3#32 200#32)).map (·.r0) = some 1#32 ∧
    (issue 0x13000000#32 (ticks 0#32 100#32 4294967295#32 999999900#32)).map (·.r0) = some 0xFFFFFFFF#32 ∧
    (issue 0x13000000#32 (ticks 2#32 5#32 2#32 9#32)).map (·.r0) = some 0xFFFFFFFF#32 := by decide

/-! ## EventCapture -/

/-- V51, V52, V53. -/
theorem test_edges :
    (takeEvent (.edge false) booted).evt = 2#2 ∧
    (takeEvent (.edge true) (takeEvent (.edge true) booted)).evt = 1#2 ∧
    (takeEvent (.edge true) (takeEvent (.edge false) booted)).btn = .pressed := by decide

/-- S4. -/
theorem test_get_event :
    (issue 0x20000000#32 { booted with evt := 3#2 }).map (fun t => (t.r0, t.evt, t.st)) =
      some (3#32, 0#2, 0#32) := by decide

/-! ## BlinkSequencer -/

/-- V60 to V64, at and around the thresholds. -/
theorem test_blink_update :
    [(BlinkMode.off, 4294967295#32, false), (.on, 0#32, true), (.slow, 21094#32, false), (.slow, 21095#32, true),
     (.medium, 9375#32, false), (.medium, 9376#32, true), (.fast, 3516#32, false), (.fast, 3517#32, true)].all
      (fun r => (issue 0x32000000#32 { booted with mode := r.1, bcntIn := r.2.1 }).map (·.led) == some r.2.2) := by
  decide

/-- V65, V5. -/
theorem test_set_mode :
    (issue 0x30000001#32 { booted with bcntIn := 22000#32 }).map (fun t => (t.mode, t.led)) = some (.slow, true) ∧
    (issue 0x30000005#32 { booted with mode := .on, led := true }).map (fun t => (t.st, t.mode, t.led)) =
      some (2#32, .on, true) := by decide

/-- V68. -/
theorem test_get_mode : (issue 0x31000000#32 { booted with mode := .on }).map (·.r0) = some 4#32 := by decide

/-- V66. -/
theorem test_bcnt_set_leaves_the_pin :
    (takeEvent (.bcntSet 100#32) { booted with mode := .slow, led := true }).led = true := by decide

/-! ## AsyncSerialChannel -/

/-- V80, S6. -/
theorem test_tx_enqueue :
    (issue 0x40000002#32 txReady).map (fun t => { t with hostTodo := [] }) = some sending ∧
    (issue 0x40000002#32 { sending with txBi := 1#16 }).map (fun t => (t.r0, t.st, t.txBi)) =
      some (0#32, 1#32, 1#16) := by decide

/-- V13, V86. -/
theorem test_tx_enqueue_misaligned :
    (issue 0x40000001#32 { sending with a0 := 0x20000102#32 }).map (fun t => (t.st, t.r0)) = some (4#32, 1#32) ∧
    (issue 0x40000001#32 { booted with a0 := 0x20000101#32 }).map (fun t => (t.st, t.txBusy)) =
      some (4#32, false) := by decide

/-- V81: byte, advance, completion. -/
theorem test_tx_step :
    (takeEvent .txStep sending).wire = [0x48#8] ∧
    (takeEvent .txStep { sending with txBi := 2#16 }).txFi = 1#16 ∧
    (takeEvent .txStep { sending with txFi := 1#16 }).wire = [0x21#8] ∧
    (takeEvent .txStep { sending with txFi := 2#16 }).txBusy = false := by decide

/-- V85, V82. -/
theorem test_tx_abort_query :
    (issue 0x41000000#32 { sending with wire := [0x48#8] }).map (fun t => (t.txBusy, t.wire)) =
      some (false, [0x48#8]) ∧
    (issue 0x42000000#32 sending).map (·.r0) = some 1#32 ∧ (issue 0x42000000#32 txReady).map (·.r0) = some 0#32 := by
  decide

/-- V90. -/
theorem test_rx_enqueue :
    (issue 0x48000000#32 rxReady).map (fun t => { t with hostTodo := [] }) = some receiving := by decide

/-- V93, V100. -/
theorem test_rx_enqueue_rejected :
    (issue 0x48000000#32 received).map (fun t => (t.r0, t.st, t.rxCnt)) = some (0#32, 1#32, 5#16) ∧
    (issue 0x48000000#32 { rxReady with a0 := 0x20000302#32 }).map (fun t => (t.st, t.mem)) = some (4#32, rxMem) := by
  decide

/-- V91, V92, V96. -/
theorem test_rx_byte :
    readByte (takeEvent (.rxByte 0x41#8) received).mem 0x20000405 = 0x41#8 ∧
    takeEvent .rxDone receiving = receiving ∧
    (takeEvent (.rxByte 0x41#8) { receiving with rxCnt := 8#16 }).rxCnt = 8#16 := by decide

/-- V94, V97, V101, V102. -/
theorem test_rx_completions :
    memRead (takeEvent .rxDone received).mem 0x20000308#32 .four = 0x00050001#32 ∧
    memRead (takeEvent .rxBreak received).mem 0x20000308#32 .four = 2#32 ∧
    memRead (takeEvent .rxDone { received with rxMax := 0xFFFF#16, rxCnt := 0xFFFF#16 }).mem 0x20000308#32 .four =
      0xFFFF0001#32 ∧
    (takeEvent .rxBreak { received with cfg := { Config.reference with hasBreak := false } }).rxBusy = true := by decide

/-- V98, V95. -/
theorem test_rx_abort_query :
    (issue 0x49000000#32 received).map (fun t => (t.rxBusy, t.mem)) = some (false, received.mem) ∧
    (issue 0x4A000000#32 received).map (·.r0) = some 1#32 ∧ (issue 0x4A000000#32 rxReady).map (·.r0) = some 0#32 := by
  decide

/-! ## Memory -/

/-- R41 to R44: byte order, the wrap at the top of the address space, and the canonical form. -/
theorem test_memory :
    memRead rxMem 0x20000308#32 .four = 0xDEADBEEF#32 ∧ memRead rxMem 0x20000308#32 .two = 0xBEEF#32 ∧
    memReadHalf rxMem 0x20000308#32 = 0xBEEF#16 ∧
    memReadHalf [(0, 0x12#8), (0xFFFFFFFF, 0x34#8)] 0xFFFFFFFF#32 = 0x1234#16 ∧
    memWrite [] 0xFFFFFFFF#32 .two 0x1234#32 = [(0, 0x12#8), (0xFFFFFFFF, 0x34#8)] ∧
    memWrite rxMem 0x20000308#32 .four 0#32 = receiving.mem := by decide

/-! ## Witnesses: the hypotheses of each statement can be met -/

theorem witness_DecodeOfEncodeIsTheCommand :
    (Instr.setMode 4#3).wf = true ∧ (Instr.txEnqueue 0xFFFF#16).wf = true := by decide

theorem witness_DecodedWordIsTheEncoding : decode 0x4000FFFF#32 = .ok (.txEnqueue 0xFFFF#16) := by decide

theorem witness_ReservedWordRaisesIllegal :
    reservedWord 0x30000005#32 ∧ reservedWord 0x30000007#32 ∧ reservedWord 0x00000000#32 ∧
    reservedWord 0x40010000#32 ∧ reservedWord 0x10000001#32 ∧ ¬ reservedWord 0x30000004#32 ∧
    ¬ reservedWord 0x4000FFFF#32 ∧
    hostIsNext (hostAt (.wr 0 0x30000005#32) State.reset) (.wr 0 0x30000005#32) [] [] := by
  refine ⟨?_, ?_, ?_, ?_, ?_, ?_, ?_, ?_⟩ <;> simp [reservedWord, commandRows, hostIsNext, hostAt, State.reset]

theorem witness_StepRunsTheDecodedCommand :
    hostIsNext (hostAt (.wr 0 0x30000004#32) booted) (.wr 0 0x30000004#32) [] [] ∧
    decode 0x30000004#32 = .ok (.setMode 4#3) := by decide

theorem witness_PlacedWordRunsNext :
    State.reset.phase ≠ .initWait ∧ decodeTableWord 32 0x01000000 = some .init ∧ booted.phase ≠ .initWait ∧
    decodeTableWord 32 0x4000FFFF = some (.txEnqueue 0xFFFF#16) := by decide

/-- Every event is enabled somewhere, and all but the two inputs are disabled somewhere. -/
theorem witness_EventActsExactlyWhenEnabled :
    (eventAt .tickAdv booted).schedule = [.event .tickAdv] ∧ enabledByTable .tickAdv booted ∧
    enabledByTable (.edge true) booted ∧ enabledByTable .txStep sending ∧ enabledByTable (.rxByte 0#8) receiving ∧
    enabledByTable .rxDone received ∧ enabledByTable .rxBreak received ∧ enabledByTable (.bcntSet 0#32) State.reset ∧
    enabledByTable (.hwrdySet true) State.reset ∧ enabledByTable .initDone { waiting with hwReady := true } ∧
    ¬ enabledByTable .tickAdv State.reset ∧ ¬ enabledByTable (.edge true) State.reset ∧
    ¬ enabledByTable .txStep booted ∧ ¬ enabledByTable (.rxByte 0#8) { receiving with rxCnt := 8#16 } ∧
    ¬ enabledByTable .rxDone receiving ∧ ¬ enabledByTable .rxBreak booted ∧ ¬ enabledByTable .initDone waiting := by
  decide

theorem witness_HostIsHeldInInitWait :
    (hostAt (.rd 1) waiting).phase = .initWait ∧ (hostAt (.rd 1) waiting).schedule = [.host] := by decide

theorem witness_HostReadReturnsTheRegister :
    hostIsNext (hostAt (.rd 0) booted) (.rd 0) [] [] ∧ hostIsNext (hostAt (.rd 7) booted) (.rd 7) [] [] := by decide

theorem witness_HostWriteReachesOnlyOperandRegisters :
    (1 : Fin 8) ≠ 0 ∧ hostIsNext (hostAt (.wr 1 7#32) booted) (.wr 1 7#32) [] [] ∧
    hostIsNext (hostAt (.wr 5 7#32) booted) (.wr 5 7#32) [] [] := by decide

theorem witness_HostLoadAndStoreReachMemory :
    (0xFFFFFFFC#32).toNat % sizeBytes .four = 0 ∧
    hostIsNext (hostAt (.load 0xFFFFFFFC#32 .four) booted) (.load 0xFFFFFFFC#32 .four) [] [] ∧
    hostIsNext (hostAt (.store 0xFFFFFFFC#32 .four 1#32) booted) (.store 0xFFFFFFFC#32 .four 1#32) [] [] := by decide

theorem witness_MisalignedHostAccessStops :
    (0xFFFFFFFF#32).toNat % sizeBytes .two ≠ 0 ∧
    hostIsNext (hostAt (.load 0xFFFFFFFF#32 .two) booted) (.load 0xFFFFFFFF#32 .two) [] [] ∧
    hostIsNext (hostAt (.store 0xFFFFFFFF#32 .two 1#32) booted) (.store 0xFFFFFFFF#32 .two 1#32) [] [] := by decide

theorem witness_MemWriteStoresLittleEndianBytes :
    Memory.wf rxMem ∧ 3 < sizeBytes .four ∧
    ∀ i < sizeBytes .four, 0x20000304 ≠ ((0x20000308#32).toNat + i) % 2 ^ 32 := by decide

/-- Also a step that every step of the invariant's proof must reach: an accepted enqueue. -/
theorem witness_EveryStepKeepsTheInvariant :
    (hostAt (.wr 0 0x40000002#32) txReady).Inv ∧ (issue 0x40000002#32 txReady).isSome = true := by decide

theorem witness_CommandOutOfSequenceRaisesSeq :
    Instr.service.wf = true ∧ Instr.service ≠ .init ∧ State.reset.phase ≠ .run ∧ booted.phase ≠ .reset := by decide

theorem witness_StatusesAreReportedInOrder :
    hostIsNext (hostAt (.wr 0 0x30000006#32) booted) (.wr 0 0x30000006#32) [] [] ∧ reservedWord 0x30000006#32 ∧
    decode 0x02000000#32 = .ok .service ∧ State.reset.phase ≠ .run ∧ decode 0x01000000#32 = .ok .init ∧
    booted.phase ≠ .reset ∧ State.reset.phase = .reset ∧ decode 0x40000001#32 = .ok (.txEnqueue 1#16) ∧
    sending.phase = .run ∧ sending.txBusy = true ∧ sending.a0.toNat % 4 = 0 ∧ (0x20000102#32).toNat % 4 ≠ 0 :=
  ⟨by decide, by simp [reservedWord, commandRows], by decide⟩

theorem witness_InitStartsTheWait :
    State.reset.phase = .reset ∧ booted.phase ≠ .reset ∧
    (after (exec .init State.reset)).map (·.phase) = some .initWait := by decide

theorem witness_InitDoneEntersRun :
    (eventAt .initDone waiting).schedule = [.event .initDone] ∧ waiting.phase = .initWait ∧ waiting.hwReady = false ∧
    ({ waiting with hwReady := true } : State).hwReady = true := by decide

theorem witness_NeverReadyHardwareHangsForEver :
    (hostAt (.rd 1) waiting).phase = .initWait ∧ (hostAt (.rd 1) waiting).hwReady = false ∧
    Turn.event (.hwrdySet true) ∉ (hostAt (.rd 1) waiting).schedule ∧
    Turn.powerOn ∉ (hostAt (.rd 1) waiting).schedule := by decide

theorem witness_ServiceOnlyReportsOk : booted.phase = .run := by decide

theorem witness_PowerOnResetsTheBlock : ({ sending with schedule := [.powerOn] } : State).schedule = [.powerOn] := by decide

theorem witness_TickAdvStepsAndWraps :
    (eventAt .tickAdv booted).schedule = [.event .tickAdv] ∧ booted.phase = .run ∧ State.reset.phase ≠ .run ∧
    booted.cfg.wf ∧ booted.clockOk ∧ ({ booted with timeNs := 2 ^ 32 * nsPerSec - 1000 } : State).clockOk := by decide

theorem witness_TickCountReturnsTheFlooredSample :
    booted.phase = .run ∧ booted.cfg.wf ∧ ({ booted with timeNs := 2 ^ 32 * nsPerSec - 1000 } : State).clockOk := by
  decide

/-- The second state has no finer source. -/
theorem witness_TickHrcountReturnsTheExactSample :
    booted.phase = .run ∧ booted.cfg.wf ∧ ({ booted with timeNs := 2 ^ 32 * nsPerSec - 1000 } : State).clockOk ∧
    let c := { Config.reference with hrResNs := 1000000 }
    c.wf ∧ ({ booted with timeNs := 7000000, cfg := c } : State).clockOk ∧ c.hrResNs = c.tickResNs := by decide

/-- One operand pair for each clause: equal Ticks, a wrap of one nanosecond less than a period, an invalid operand, and
exactly a period. -/
theorem witness_TickDeltaCorrectsOneWrap :
    booted.phase = .run ∧ booted.cfg.wf ∧ shortPeriod.wf ∧
    (999999999#32).toNat ≤ 999999999 ∧ pairNs 7#32 0#32 ≤ pairNs 7#32 0#32 ∧
    pairNs 0#32 0#32 < pairNs 59#32 999999999#32 ∧
    pairNs 59#32 999999999#32 < pairNs 0#32 0#32 + shortPeriod.tickPeriodNs ∧
    999999999 < (1000000000#32).toNat ∧
    pairNs 0#32 0#32 + shortPeriod.tickPeriodNs ≤ pairNs 60#32 0#32 := by decide

theorem witness_TickDeltaIsFieldwiseSubtraction :
    (ticks 0#32 0#32 4294967295#32 999999999#32).phase = .run ∧
    (ticks 0#32 0#32 4294967295#32 999999999#32).cfg.tickPeriodNs = 2 ^ 32 * nsPerSec ∧
    (ticks 0#32 0#32 4294967295#32 999999999#32).a1.toNat ≤ 999999999 ∧
    (ticks 0#32 0#32 4294967295#32 999999999#32).a3.toNat ≤ 999999999 := by decide

theorem witness_TickCompareIsATotalOrder : (ticks 0#32 0xFFFFFFFF#32 1#32 0#32).phase = .run := by decide

/-- A sample of `TICK_HRCOUNT` on the last quantum of the period and one after the wrap, then two of `TICK_COUNT` inside
one period. -/
theorem witness_SuccessiveSamplesGiveTheElapsedTime :
    let s := { booted with timeNs := 2 ^ 32 * nsPerSec - 1000 }
    let u := { s with r0 := 4294967295#32, r1 := 999999000#32 }
    let t := { booted with timeNs := 0 }
    s.Inv ∧ s.phase = .run ∧ t = afterTicks 1 s ∧ after (exec .tickHrcount s) = some u ∧
    after (exec .tickHrcount t) = some t ∧
    s.cfg.tickPeriodNs ≤ s.timeNs + 1 * s.cfg.hrResNs ∧
    s.timeNs + 1 * s.cfg.hrResNs < s.cfg.tickPeriodNs + pairNs u.r0 u.r1 ∧
    (ticks t.r0 t.r1 u.r0 u.r1).phase = .run ∧ (ticks t.r0 t.r1 u.r0 u.r1).cfg = s.cfg ∧
    { booted with timeNs := 2000 } = afterTicks 2 booted ∧ after (exec .tickCount booted) = some booted ∧
    booted.timeNs + 2 * booted.cfg.hrResNs < booted.cfg.tickPeriodNs := by decide

theorem witness_EdgeOverwritesButtonAndAccumulates :
    (eventAt (.edge true) booted).schedule = [.event (.edge true)] ∧ booted.phase = .run ∧
    State.reset.phase ≠ .run := by decide

theorem witness_GetEventReadsAndClears : ({ booted with evt := 3#2 } : State).phase = .run := by decide

theorem witness_NoEdgeIsLostBeforeTheRead :
    let s := { booted with
      schedule := [.event (.edge true), .event (.edge false), .host]
      hostTodo := [.wr 0 0x20000000#32] }
    s.phase = .run ∧ s.schedule = [true, false].map (fun l => Turn.event (.edge l)) ++ [.host] ∧
    s.hostTodo = [.wr 0 0x20000000#32] := by decide

theorem witness_SetModeAssignsAndRecomputes :
    booted.phase = .run ∧ 4 < (5#3).toNat ∧
    (4#3, BlinkMode.on) ∈ [(0#3, BlinkMode.off), (1#3, .slow), (2#3, .medium), (3#3, .fast), (4#3, .on)] := by decide

theorem witness_GetModeReturnsTheMode :
    booted.phase = .run ∧ booted.mode = .off ∧
    (0#32, BlinkMode.off) ∈ [(0#32, BlinkMode.off), (1#32, .slow), (2#32, .medium), (3#32, .fast), (4#32, .on)] := by decide

theorem witness_BlinkUpdateComparesStrictly :
    ({ booted with mode := .fast, bcntIn := 3516#32 } : State).phase = .run := by decide

theorem witness_InputEventsSetOnlyTheirInput :
    (eventAt (.bcntSet 5#32) waiting).schedule = [.event (.bcntSet 5#32)] ∧
    (eventAt (.hwrdySet true) waiting).schedule = [.event (.hwrdySet true)] := by decide

theorem witness_TxEnqueueLatchesOrRejects :
    txReady.phase = .run ∧ txReady.a0.toNat % 4 = 0 ∧ txReady.txBusy = false ∧ sending.a0.toNat % 4 = 0 ∧
    sending.txBusy = true ∧ ({ txReady with a0 := 0x20000103#32 } : State).a0.toNat % 4 ≠ 0 := by decide

theorem witness_TxAbortFreesTheChannel : sending.phase = .run ∧ sending.a0.toNat % 4 = 0 := by decide

theorem witness_TxQueryReturnsTheFlag : sending.phase = .run ∧ sending.txBusy = true := by decide

/-- One state for each clause: all fragments sent, a fragment just finished, a byte left. -/
theorem witness_TxStepSendsMovesOrCompletes :
    (eventAt .txStep sending).schedule = [.event .txStep] ∧ sending.phase = .run ∧ sending.txBusy = true ∧
    ({ sending with txFi := 2#16 } : State).txFi = sending.txNfrag ∧ sending.txFi ≠ sending.txNfrag ∧
    (memReadHalf txMem (0x20000100#32 + 8#32 * 0#32 + 4#32)).toNat = 2 ∧
    ({ sending with txBi := 1#16 } : State).txBi.toNat < 2 ∧ 2 ≤ ({ sending with txBi := 2#16 } : State).txBi.toNat := by
  decide

theorem witness_TransmissionSendsExactlyItsFragments :
    let s := { sending with schedule := List.replicate 6 (.event .txStep) }
    s.phase = .run ∧ s.txBusy = true ∧ s.txFi = 0#16 ∧ s.txBi = 0#16 ∧
    6 = (payload s.mem s.txFaddr s.txNfrag.toNat).length + s.txNfrag.toNat + 1 ∧
    s.schedule = List.replicate 6 (.event .txStep) ++ [] := by decide

theorem witness_RxEnqueueArmsOrRejects :
    rxReady.phase = .run ∧ rxReady.a0.toNat % 4 = 0 ∧ rxReady.rxBusy = false ∧ received.rxBusy = true ∧
    received.a0.toNat % 4 = 0 ∧ ({ rxReady with a0 := 0x20000301#32 } : State).a0.toNat % 4 ≠ 0 := by decide

theorem witness_RxAbortFreesTheChannel : received.phase = .run ∧ Event.rxDone.agent = .serRx := by decide

theorem witness_RxQueryReturnsTheFlag : received.phase = .run ∧ received.rxBusy = true := by decide

theorem witness_RxByteFillsTheBuffer :
    (eventAt (.rxByte 0x41#8) received).schedule = [.event (.rxByte 0x41#8)] ∧ received.phase = .run ∧
    Memory.wf received.mem ∧ received.rxBusy = true ∧
    ({ received with rxCnt := 7#16 } : State).rxCnt.toNat < received.rxMax.toNat ∧
    received.rxMax.toNat ≤ ({ received with rxCnt := 8#16 } : State).rxCnt.toNat ∧ booted.rxBusy = false ∧
    0x20000404 ≠ (received.rxBuf.toNat + received.rxCnt.toNat) % 2 ^ 32 := by decide

theorem witness_RxDoneWritesTheLength :
    (eventAt .rxDone received).schedule = [.event .rxDone] ∧ received.phase = .run ∧ received.rxBusy = true ∧
    1 ≤ ({ received with rxCnt := 1#16 } : State).rxCnt.toNat ∧ receiving.rxCnt = 0#16 := by decide

theorem witness_RxBreakWritesBreak :
    (eventAt .rxBreak received).schedule = [.event .rxBreak] ∧ received.phase = .run ∧ received.rxBusy = true ∧
    received.cfg.hasBreak = true ∧ ({ Config.reference with hasBreak := false } : Config).hasBreak = false := by decide

theorem witness_ReceptionDeliversItsBytes :
    let s := { rxReady with
      hostTodo := [.wr 0 0x48000000#32, .load (0x20000300#32 + 8#32) .four, .load (0x20000300#32 + 8#32) .four]
      schedule := [.host, .event (.rxByte 0x48#8), .event (.rxByte 0x45#8), .host, .event .rxDone, .host] }
    s.phase = .run ∧ Memory.wf s.mem ∧ s.rxBusy = false ∧ s.a0 = 0x20000300#32 ∧ (0x20000300#32).toNat % 4 = 0 ∧
    0x20000400#32 = memRead s.mem 0x20000300#32 .four ∧ 2 ≤ (memReadHalf s.mem (0x20000300#32 + 4#32)).toNat ∧
    (∀ j < 2, (0x20000400#32 + BitVec.ofNat 32 j).toNat ∉ byteAddrs (0x20000300#32 + 8#32) 4) ∧
    s.schedule = .host :: [0x48#8, 0x45#8].map (fun b => Turn.event (.rxByte b)) ++
      .host :: .event .rxDone :: .host :: [] := by decide

theorem witness_OneOperationPerDirection :
    txReady.phase = .run ∧ txReady.a0.toNat % 4 = 0 ∧ txReady.txBusy = false ∧ rxReady.rxBusy = false ∧
    ((after (exec (.txEnqueue 2#16) txReady)).bind fun t => after (exec .txAbort t)).isSome = true ∧
    ((after (exec .rxEnqueue rxReady)).bind fun t => after (exec .rxAbort t)).isSome = true := by decide

/-- Each field of the list is written by the command named for it. -/
theorem witness_CommandsWriteOnlyTheirFields :
    (after (exec .tickHrcount { booted with timeNs := 5123456000 })).map (·.r1) ≠ some booted.r1 ∧
    (after (exec (.setMode 4#3) booted)).map (fun t => (t.mode, t.led)) = some (.on, true) ∧
    (after (exec .getEvent { booted with evt := 3#2 })).map (·.evt) ≠ some 3#2 ∧
    (after (exec (.txEnqueue 2#16) txReady)).map (·.txBusy) ≠ some txReady.txBusy ∧
    (after (exec .rxAbort received)).map (·.rxBusy) ≠ some received.rxBusy ∧
    (after (exec .rxEnqueue rxReady)).map (·.mem) ≠ some rxReady.mem := by decide

theorem witness_CommandsStoreOnlyTheCompletionWord :
    Memory.wf rxReady.mem ∧ (after (exec .rxEnqueue rxReady)).isSome = true ∧ rxReady.phase = .run ∧
    rxReady.a0.toNat % 4 = 0 ∧ rxReady.rxBusy = false ∧ 0x2000030C ∉ byteAddrs (completionAddr rxReady.a0) 4 ∧
    0x20000307 ∉ byteAddrs (completionAddr rxReady.a0) 4 := by decide

/-- The last clause: a disabled `RX_DONE` at a byte it names. -/
theorem witness_EventsStoreOnlyWhereTheyName :
    Memory.wf received.mem ∧ 0x20000406 ∉ eventWrites (.rxByte 0x41#8) received ∧
    0x2000030C ∉ eventWrites .rxDone received ∧ 0x20000307 ∉ eventWrites .rxBreak received ∧
    Memory.wf receiving.mem ∧ 0x20000308 ∈ eventWrites .rxDone receiving ∧ ¬ enabledByTable .rxDone receiving := by decide

theorem witness_EventsLeaveTheCommandStreamAlone : Event.txStep ≠ .initDone := by decide

/-- One step for each case: `INIT`, `INIT_DONE`, power-on. -/
theorem witness_PhaseMovesOnlyForward :
    (issue 0x01000000#32 State.reset).map (·.phase) = some .initWait ∧
    (after (step (eventAt .initDone { waiting with hwReady := true }))).map (·.phase) = some .run ∧
    (after (step { booted with schedule := [.powerOn] })).map (·.phase) = some .reset := by decide

theorem witness_WireOnlyGrows :
    (after (step (eventAt .txStep sending))).map (·.wire) = some [0x48#8] ∧
    (eventAt .txStep sending).schedule.head? ≠ some .powerOn := by decide

/-- The four changes: enqueues raise the flags, a completion, an abort and a reception's end clear them. -/
theorem witness_BusyFlagsChangeOnlyAsListed :
    (hostAt (.wr 0 0x40000002#32) txReady).Inv ∧ (issue 0x40000002#32 txReady).map (·.txBusy) = some true ∧
    (eventAt .txStep { sending with txFi := 2#16 }).Inv ∧
    (after (step (eventAt .txStep { sending with txFi := 2#16 }))).map (·.txBusy) = some false ∧
    (hostAt (.wr 0 0x48000000#32) rxReady).Inv ∧ (issue 0x48000000#32 rxReady).map (·.rxBusy) = some true ∧
    (eventAt .rxDone received).Inv ∧ (after (step (eventAt .rxDone received))).map (·.rxBusy) = some false := by
  refine ⟨?_, ?_, ?_, ?_, ?_, ?_, ?_, ?_⟩ <;> decide

/-- An enabled `TX_STEP` beside a received byte that falls elsewhere. -/
theorem witness_EventsOfDifferentSourcesCommute :
    let s := { sending with rxBusy := true, rxBuf := 0x20000400#32, rxMax := 8#16 }
    Memory.wf s.mem ∧ Event.txStep.agent ≠ (Event.rxByte 0x41#8).agent ∧ Event.txStep.agent ≠ .initDone ∧
    (Event.rxByte 0x41#8).agent ≠ .initDone ∧ enabledByTable .txStep s ∧ enabledByTable (.rxByte 0x41#8) s ∧
    ∀ x ∈ txReads s, x ∉ eventWrites .txStep s ∧ x ∉ eventWrites (.rxByte 0x41#8) s := by decide

/-- An enabled `TX_STEP` beside a disabled `RX_BYTE` whose byte it reads. -/
theorem witness_EventsOfDifferentSourcesCommute_disabled :
    let s := { sending with rxBuf := 0x20000200#32 }
    Memory.wf s.mem ∧ enabledByTable .txStep s ∧ ¬ enabledByTable (.rxByte 0x41#8) s ∧
    0x20000200 ∈ txReads s ∧ 0x20000200 ∈ eventWrites (.rxByte 0x41#8) s ∧
    ∀ x ∈ txReads s, x ∉ eventWrites .txStep s := by decide

end Sys2Proof.Tests
end

section
/-! SUPPORT. The decoder inverted: which word a decoded command came from (`30_encoding.md` R60 to R63). -/

namespace Sys2Proof

/-- A command word is its opcode above its 24-bit operand (R60). -/
theorem word_eq_opcode_operand (w : Word) :
    w = ((opcodeField w).setWidth 32 <<< 24) ||| (w.extractLsb' 0 24).setWidth 32 := by
  ext i hi
  by_cases h24 : i < 24
  · simp [h24, BitVec.getLsbD_eq_getElem hi]
  · simp [opcodeField, h24, show i - 24 < 8 by omega, show 24 + (i - 24) = i by omega, hi]

/-- A word whose low `k` bits are `x` and whose further operand bits are 0 has the operand `x` (R61). -/
theorem operand_eq_low_field (w : Word) {k : Nat} (hk : k ≤ 24) (h : w.extractLsb' k (24 - k) = 0#(24 - k)) :
    w.extractLsb' 0 24 = (w.extractLsb' 0 k).setWidth 24 := by
  ext i hi
  by_cases hik : i < k
  · simp [hik]
  · have hbit := congrArg (fun b : BitVec (24 - k) => b.getLsbD (i - k)) h
    simp only [BitVec.getLsbD_extractLsb', BitVec.getLsbD_zero, show i - k < 24 - k by omega,
      show k + (i - k) = i by omega] at hbit
    simpa [hik, hi] using hbit

theorem decodeZ_eq_ok {w : Word} {j i : Instr} (h : decodeZ w j = .ok i) : i = j ∧ w.extractLsb' 0 24 = 0#24 := by
  unfold decodeZ at h
  split at h
  · next hz => exact ⟨(Except.ok.inj h).symm, hz⟩
  · cases h

theorem decodeM_eq_ok {w : Word} {i : Instr} (h : decodeM w = .ok i) :
    i = .setMode (modeField w) ∧ legalMode (modeField w) = true ∧
      w.extractLsb' 0 24 = (modeField w).setWidth 24 := by
  unfold decodeM at h
  split at h
  · next hz =>
    split at h
    · next hl => exact ⟨(Except.ok.inj h).symm, hl, operand_eq_low_field w (k := 3) (by decide) hz⟩
    · cases h
  · cases h

theorem decodeN_eq_ok {w : Word} {i : Instr} (h : decodeN w = .ok i) :
    i = .txEnqueue (nfragsField w) ∧ w.extractLsb' 0 24 = (nfragsField w).setWidth 24 := by
  unfold decodeN at h
  split at h
  · next hz => exact ⟨(Except.ok.inj h).symm, operand_eq_low_field w (k := 16) (by decide) hz⟩
  · cases h

/-- The whole of what a decoded command says of its word: the command is well formed, and the word holds its opcode and
its operand. -/
theorem fields_of_decode {w : Word} {i : Instr} (h : decode w = .ok i) :
    i.wf = true ∧ opcodeField w = opcode i ∧ w.extractLsb' 0 24 = operandField i := by
  have formatZ : ∀ {j : Instr}, decodeZ w j = .ok i → (opcodeField w).toNat = (opcode j).toNat → j.wf = true →
      operandField j = 0#24 → i.wf = true ∧ opcodeField w = opcode i ∧ w.extractLsb' 0 24 = operandField i := by
    intro j hd hop hwf hoperand
    obtain ⟨rfl, hz⟩ := decodeZ_eq_ok hd
    exact ⟨hwf, BitVec.eq_of_toNat_eq hop, hz.trans hoperand.symm⟩
  unfold decode at h
  split at h
  case h_8 hop =>
    obtain ⟨rfl, hl, hm⟩ := decodeM_eq_ok h
    exact ⟨hl, BitVec.eq_of_toNat_eq hop, hm⟩
  case h_11 hop =>
    obtain ⟨rfl, hn⟩ := decodeN_eq_ok h
    exact ⟨rfl, BitVec.eq_of_toNat_eq hop, hn⟩
  case h_17 => cases h
  all_goals next hop => exact formatZ h hop rfl rfl

/-- A word that decodes is the encoding of its command: no two words stand for one command. -/
theorem encode_of_decode {w : Word} {i : Instr} (h : decode w = .ok i) : encode i = w := by
  obtain ⟨-, hop, hoperand⟩ := fields_of_decode h
  rw [word_eq_opcode_operand w, hop, hoperand, encode]

/-- The word of `TX_ENQUEUE nfrags` as R62 writes it. -/
theorem encode_txEnqueue (n : Half) : encode (.txEnqueue n) = 0x40000000#32 + n.setWidth 32 := by
  have hdisjoint : 0x40000000#32 &&& n.setWidth 32 = 0#32 := by
    have hop : ∀ i < 16, (0x40000000#32).getLsbD i = false := by decide
    refine BitVec.eq_of_getLsbD_eq fun i _ => ?_
    by_cases hi : i < 16
    · rw [BitVec.getLsbD_and, hop i hi, Bool.false_and, BitVec.getLsbD_zero]
    · rw [BitVec.getLsbD_and, BitVec.getLsbD_setWidth, BitVec.getLsbD_of_ge n i (by omega), Bool.and_false,
        Bool.and_false, BitVec.getLsbD_zero]
  have hop : (0x40#8).setWidth 32 <<< 24 = 0x40000000#32 := by decide
  rw [BitVec.add_eq_or_of_and_eq_zero _ _ hdisjoint, encode, opcode, operandField, hop,
    BitVec.setWidth_setWidth (by decide)]

end Sys2Proof
end

section
/-! SUPPORT. What one step can do, said once: a command (R11, R63), an event (R31), power-on (R180), or something
outside the block's units. -/

namespace Sys2Proof.Machine

/-! ## The steps that reach no unit of the block -/

/-- `t` differs from `s` at most in the operand registers, in memory, in a status `ILLEGAL`, and in the host's own
steps, record and turns: what every step but a command, an event and power-on does (R11, R50, R65). -/
structure HostSideOnly (s t : State) : Prop where
  frame : t = { s with
    a0 := t.a0, a1 := t.a1, a2 := t.a2, a3 := t.a3, st := t.st, mem := t.mem, hostTodo := t.hostTodo,
    schedule := t.schedule, hostReads := t.hostReads }
  memWf : Memory.wf s.mem → Memory.wf t.mem
  status : t.st = s.st ∨ t.st = 2#32

theorem HostSideOnly.phase_eq {s t : State} (h : HostSideOnly s t) : t.phase = s.phase :=
  (congrArg State.phase h.frame :)

theorem HostSideOnly.wire_eq {s t : State} (h : HostSideOnly s t) : t.wire = s.wire := (congrArg State.wire h.frame :)

theorem HostSideOnly.txBusy_eq {s t : State} (h : HostSideOnly s t) : t.txBusy = s.txBusy :=
  (congrArg State.txBusy h.frame :)

theorem HostSideOnly.rxBusy_eq {s t : State} (h : HostSideOnly s t) : t.rxBusy = s.rxBusy :=
  (congrArg State.rxBusy h.frame :)

/-- What the host has to do and whose turn it is says nothing of the block. -/
theorem HostSideOnly.of_turn_used {s t : State} {todo : List HostStep} {rest : List Turn}
    (h : HostSideOnly { s with hostTodo := todo, schedule := rest } t) : HostSideOnly s t :=
  ⟨h.frame, h.memWf, h.status⟩

theorem hostSideOnly_turn_used (s : State) (rest : List Turn) : HostSideOnly s { s with schedule := rest } :=
  ⟨rfl, id, .inl rfl⟩

theorem hostSideOnly_writePort (s : State) (r : PortReg) (v : Word) : HostSideOnly s (writePort s r v) := by
  cases r <;> exact ⟨rfl, id, .inl rfl⟩

/-! ## The host's step -/

theorem portReg_eq_cmd_iff (n : Fin 8) : portReg n = .cmd ↔ n = 0 := by
  revert n
  decide

/-- Everything a host step can do: a decoded command, or nothing to the units. -/
theorem takeHostStep_cases {h : HostStep} {s t : State} (ht : takeHostStep h s = .next t) :
    HostSideOnly s t ∨ ∃ w i, h = .wr 0 w ∧ decode w = .ok i ∧ exec i s = .next t := by
  cases h with
  | rd n =>
    cases ht
    exact .inl ⟨rfl, id, .inl rfl⟩
  | wr n v =>
    rw [takeHostStep] at ht
    split at ht
    · next hn =>
      obtain rfl := (portReg_eq_cmd_iff n).mp hn
      rcases issueCommand_cases ht with ⟨-, rfl⟩ | ⟨i, hd, he⟩
      · exact .inl ⟨rfl, id, .inr rfl⟩
      · exact .inr ⟨v, i, rfl, hd, he⟩
    · cases ht
      exact .inl (hostSideOnly_writePort s _ v)
  | load a n =>
    rw [takeHostStep] at ht
    split at ht
    · cases ht
      exact .inl ⟨rfl, id, .inl rfl⟩
    · cases ht
  | store a n v =>
    rw [takeHostStep] at ht
    split at ht
    · cases ht
      exact .inl ⟨rfl, fun hm => wf_memWrite hm a n v, .inl rfl⟩
    · cases ht

/-- The host's step writes the word of `i` to `CMD` at its turn, and the step is the command's meaning. -/
def commandStep (i : Instr) (s t : State) : Prop :=
  s.schedule.head? = some .host ∧ s.hostTodo.head? = some (.wr 0 (encode i)) ∧
    ∃ todo rest, exec i { s with hostTodo := todo, schedule := rest } = .next t

/-- Everything a step can do. -/
theorem step_next_cases {s t : State} (h : step s = .next t) :
    HostSideOnly s t ∨ (∃ i, commandStep i s t) ∨
    (∃ e rest, s.schedule.head? = some (.event e) ∧ t = takeEvent e { s with schedule := rest }) ∨
    (s.schedule.head? = some .powerOn ∧ ∃ rest, t = powerOn { s with schedule := rest }) := by
  rcases step_cases s with ⟨-, hs⟩ | ⟨rest, hsch, hs⟩ | ⟨e, rest, hsch, hs⟩ | ⟨rest, hsch, hs⟩ <;> rw [hs] at h
  · cases h
    exact .inl (hostSideOnly_turn_used s s.schedule)
  · rcases hostTurn_cases { s with schedule := rest } with ⟨ht, -⟩ | ⟨-, hostStep, todo, htodo, ht⟩ <;> rw [ht] at h
    · cases h
      exact .inl (hostSideOnly_turn_used s rest)
    · rcases takeHostStep_cases h with hside | ⟨w, i, rfl, hd, he⟩
      · exact .inl (hside.of_turn_used (s := s))
      · refine .inr (.inl ⟨i, by rw [hsch]; rfl, ?_, todo, rest, he⟩)
        rw [show s.hostTodo = _ from htodo, encode_of_decode hd]
        rfl
  · cases h
    exact .inr (.inr (.inl ⟨e, rest, by rw [hsch]; rfl, rfl⟩))
  · cases h
    exact .inr (.inr (.inr ⟨by rw [hsch]; rfl, rest, rfl⟩))

/-! ## Commands -/

/-- The command only answers: `t` differs from `s` at most in the results, `ST`, the event mask, the indicator and the
count of draws, and before `RUN` in `ST` alone. -/
structure AnswersOnly (s t : State) : Prop where
  frame : t = { s with
    r0 := t.r0, r1 := t.r1, st := t.st, evt := t.evt, mode := t.mode, led := t.led, draws := t.draws }
  status : t.statusOk
  beforeRun : s.phase ≠ .run → t = { s with st := t.st }

theorem AnswersOnly.of_run {s t : State} (x : Status) (hp : s.phase = .run)
    (hf : t = { s with
      r0 := t.r0, r1 := t.r1, st := t.st, evt := t.evt, mode := t.mode, led := t.led, draws := t.draws })
    (hst : t.st = statusCode x) : AnswersOnly s t :=
  ⟨hf, (congrArg BitVec.toNat hst).trans_le (statusCode_le x), fun hne => absurd hp hne⟩

theorem AnswersOnly.of_status (s : State) (x : Status) : AnswersOnly s { s with st := statusCode x } :=
  ⟨rfl, statusCode_le x, fun _ => rfl⟩

/-- What a command does to the phase and to the serial channels; every other command only answers. -/
theorem exec_effect {i : Instr} {s t : State} (h : exec i s = .next t) :
    AnswersOnly s t ∨
    (i = .init ∧ s.phase = .reset ∧ t = { s with phase := .initWait }) ∨
    (∃ n, i = .txEnqueue n ∧ s.phase = .run ∧ s.a0.toNat % 4 = 0 ∧ t = { s with
      txFaddr := s.a0, txNfrag := n, txFi := 0#16, txBi := 0#16, txBusy := true, r0 := 1#32, st := 0#32 }) ∨
    (i = .txAbort ∧ s.phase = .run ∧ t = { s with txBusy := false, st := 0#32 }) ∨
    (i = .rxEnqueue ∧ s.phase = .run ∧ s.a0.toNat % 4 = 0 ∧ t = { s with
      rxDaddr := s.a0
      rxBuf := memRead s.mem s.a0 .four
      rxMax := memReadHalf s.mem (s.a0 + 4#32)
      rxCnt := 0#16
      mem := memWrite s.mem (completionAddr s.a0) .four 0#32
      rxBusy := true
      r0 := 1#32
      st := 0#32 }) ∨
    (i = .rxAbort ∧ s.phase = .run ∧ t = { s with rxBusy := false, st := 0#32 }) := by
  rcases exec_cases h with ⟨x, -, rfl⟩ | hinit | ⟨hp, hrun⟩
  · exact .inl (.of_status s x)
  · exact .inr (.inl hinit)
  · rcases hrun with ⟨-, rfl⟩ | ⟨-, a, b, d, -, rfl⟩ | ⟨-, v, rfl⟩ | ⟨-, rfl⟩ | ⟨m, mode, -, -, rfl⟩ | ⟨-, rfl⟩ |
      ⟨n, -, -, -, rfl⟩ | ⟨n, hi, ha, -, ht⟩ | ⟨hi, ht⟩ | ⟨-, -, -, rfl⟩ | ⟨hi, ha, -, ht⟩ | ⟨hi, ht⟩
    iterate 6 exact .inl (.of_run .ok hp rfl rfl)
    · exact .inl (.of_run .busy hp rfl rfl)
    · exact .inr (.inr (.inl ⟨n, hi, hp, ha, ht⟩))
    · exact .inr (.inr (.inr (.inl ⟨hi, hp, ht⟩)))
    · exact .inl (.of_run .busy hp rfl rfl)
    · exact .inr (.inr (.inr (.inr (.inl ⟨hi, hp, ha, ht⟩))))
    · exact .inr (.inr (.inr (.inr (.inr ⟨hi, hp, ht⟩))))

/-- A command moves the phase only by `INIT`, from `RESET` to `INIT_WAIT` (R150). -/
theorem exec_phase {i : Instr} {s t : State} (h : exec i s = .next t) :
    t.phase = s.phase ∨ (i = .init ∧ s.phase = .reset ∧ t.phase = .initWait) := by
  rcases exec_effect h with ha | ⟨hi, hp, rfl⟩ | ⟨n, -, -, -, rfl⟩ | ⟨-, -, rfl⟩ | ⟨-, -, -, rfl⟩ | ⟨-, -, rfl⟩
  · exact .inl (congrArg State.phase ha.frame :)
  · exact .inr ⟨hi, hp, rfl⟩
  all_goals exact .inl rfl

/-- No command writes the serial line (R32). -/
theorem exec_wire {i : Instr} {s t : State} (h : exec i s = .next t) : t.wire = s.wire := by
  rcases exec_effect h with ha | ⟨-, -, rfl⟩ | ⟨n, -, -, -, rfl⟩ | ⟨-, -, rfl⟩ | ⟨-, -, -, rfl⟩ | ⟨-, -, rfl⟩
  · exact (congrArg State.wire ha.frame :)
  all_goals rfl

/-- What a command does to the transmit side: nothing, an accepted enqueue, or an abort (R125, R126). -/
theorem exec_txBusy {i : Instr} {s t : State} (h : exec i s = .next t) :
    t.txBusy = s.txBusy ∨ (i = .txEnqueue t.txNfrag ∧ t.txBusy = true ∧ t.r0 = 1#32) ∨
    (i = .txAbort ∧ t.txBusy = false) := by
  rcases exec_effect h with ha | ⟨-, -, rfl⟩ | ⟨n, hi, -, -, rfl⟩ | ⟨hi, -, rfl⟩ | ⟨-, -, -, rfl⟩ | ⟨-, -, rfl⟩
  · exact .inl (congrArg State.txBusy ha.frame :)
  · exact .inl rfl
  · exact .inr (.inl ⟨hi, rfl, rfl⟩)
  · exact .inr (.inr ⟨hi, rfl⟩)
  all_goals exact .inl rfl

/-- What a command does to the receive side: nothing, an accepted enqueue, or an abort (R131, R132). -/
theorem exec_rxBusy {i : Instr} {s t : State} (h : exec i s = .next t) :
    t.rxBusy = s.rxBusy ∨ (i = .rxEnqueue ∧ t.rxBusy = true ∧ t.r0 = 1#32) ∨ (i = .rxAbort ∧ t.rxBusy = false) := by
  rcases exec_effect h with ha | ⟨-, -, rfl⟩ | ⟨n, -, -, -, rfl⟩ | ⟨-, -, rfl⟩ | ⟨hi, -, -, rfl⟩ | ⟨hi, -, rfl⟩
  · exact .inl (congrArg State.rxBusy ha.frame :)
  · exact .inl rfl
  · exact .inl rfl
  · exact .inl rfl
  · exact .inr (.inl ⟨hi, rfl, rfl⟩)
  · exact .inr (.inr ⟨hi, rfl⟩)

/-! ## Events -/

/-- The model's test of column "enabled when" is R31's table. -/
theorem eventEnabled_iff (e : Event) (s : State) : eventEnabled e s = true ↔ enabledByTable e s := by
  cases e <;> simp [eventEnabled, and_assoc]

theorem takeEvent_of_table {e : Event} {s : State} (h : enabledByTable e s) : takeEvent e s = eventEffect e s :=
  takeEvent_of_enabled ((eventEnabled_iff e s).mpr h)

theorem takeEvent_of_not_table {e : Event} {s : State} (h : ¬ enabledByTable e s) : takeEvent e s = s :=
  takeEvent_of_disabled (Bool.eq_false_iff.mpr fun hen => h ((eventEnabled_iff e s).mp hen))

/-- Everything a transmit step does (R128). -/
theorem txStep_cases (s : State) :
    (s.txFi = s.txNfrag ∧ txStep s = { s with txBusy := false }) ∨
    (s.txFi ≠ s.txNfrag ∧ txStep s = { s with txFi := s.txFi + 1#16, txBi := 0#16 }) ∨
    (s.txFi ≠ s.txNfrag ∧ ∃ b, txStep s = { s with wire := s.wire ++ [b], txBi := s.txBi + 1#16 }) := by
  unfold txStep
  split
  · next hfi => exact .inl ⟨hfi, rfl⟩
  · next hfi =>
    split
    · exact .inr (.inl ⟨hfi, rfl⟩)
    · exact .inr (.inr ⟨hfi, _, rfl⟩)

/-- An enabled event changes the phase only as `INIT_DONE`, which enters `RUN` (R151). -/
theorem eventEffect_phase (e : Event) (s : State) :
    (eventEffect e s).phase = if e = .initDone then .run else s.phase := by
  cases e with
  | txStep => rcases txStep_cases s with ⟨-, h⟩ | ⟨-, h⟩ | ⟨-, b, h⟩ <;> simp [eventEffect, h]
  | _ => rfl

theorem takeEvent_phase (e : Event) (s : State) :
    (takeEvent e s).phase = s.phase ∨
    (e = .initDone ∧ s.phase = .initWait ∧ s.hwReady = true ∧ (takeEvent e s).phase = .run) := by
  by_cases hen : enabledByTable e s
  · rw [takeEvent_of_table hen, eventEffect_phase]
    split
    · next he =>
      subst he
      obtain ⟨hp, hw⟩ := hen
      exact .inr ⟨rfl, hp, hw, rfl⟩
    · exact .inl rfl
  · exact .inl (by rw [takeEvent_of_not_table hen])

/-- An event adds to the line at most the one byte of a `TX_STEP` (R128, R26). -/
theorem takeEvent_wire (e : Event) (s : State) :
    (takeEvent e s).wire = s.wire ∨ (e = .txStep ∧ ∃ b, (takeEvent e s).wire = s.wire ++ [b]) := by
  by_cases hen : enabledByTable e s
  · rw [takeEvent_of_table hen]
    cases e with
    | txStep =>
      rcases txStep_cases s with ⟨-, h⟩ | ⟨-, h⟩ | ⟨-, b, h⟩
      · exact .inl ((congrArg State.wire h :))
      · exact .inl ((congrArg State.wire h :))
      · exact .inr ⟨rfl, b, (congrArg State.wire h :)⟩
    | _ => exact .inl rfl
  · exact .inl (by rw [takeEvent_of_not_table hen])

/-- An event changes `TX_BUSY` only to clear it, at a completion (R128) or at `INIT_DONE` (R151). -/
theorem takeEvent_txBusy (e : Event) (s : State) :
    (takeEvent e s).txBusy = s.txBusy ∨ ((takeEvent e s).txBusy = false ∧
      ((e = .txStep ∧ s.txFi = s.txNfrag) ∨ s.phase = .initWait)) := by
  by_cases hen : enabledByTable e s
  · rw [takeEvent_of_table hen]
    cases e with
    | txStep =>
      rcases txStep_cases s with ⟨hfi, h⟩ | ⟨-, h⟩ | ⟨-, b, h⟩
      · exact .inr ⟨(congrArg State.txBusy h :), .inl ⟨rfl, hfi⟩⟩
      · exact .inl ((congrArg State.txBusy h :))
      · exact .inl ((congrArg State.txBusy h :))
    | initDone => exact .inr ⟨rfl, .inr hen.1⟩
    | _ => exact .inl rfl
  · exact .inl (by rw [takeEvent_of_not_table hen])

/-- An event changes `RX_BUSY` only to clear it, at the end of a reception (R135, R136) or at `INIT_DONE` (R151). -/
theorem takeEvent_rxBusy (e : Event) (s : State) :
    (takeEvent e s).rxBusy = s.rxBusy ∨ ((takeEvent e s).rxBusy = false ∧
      (e = .rxDone ∨ e = .rxBreak ∨ s.phase = .initWait)) := by
  by_cases hen : enabledByTable e s
  · rw [takeEvent_of_table hen]
    cases e with
    | txStep =>
      rcases txStep_cases s with ⟨-, h⟩ | ⟨-, h⟩ | ⟨-, b, h⟩ <;> exact .inl ((congrArg State.rxBusy h :))
    | rxDone => exact .inr ⟨rfl, .inl rfl⟩
    | rxBreak => exact .inr ⟨rfl, .inr (.inl rfl)⟩
    | initDone => exact .inr ⟨rfl, .inr (.inr hen.1)⟩
    | _ => exact .inl rfl
  · exact .inl (by rw [takeEvent_of_not_table hen])

end Sys2Proof.Machine
end

section
/-! PROOFS. The machine's invariant (`State.Inv`) is kept by every step: host side, commands, events, power-on. -/

namespace Sys2Proof.Machine

/-! ## Steps of the host and commands -/

theorem HostSideOnly.keeps_inv {s t : State} (h : HostSideOnly s t) (hs : s.Inv) : t.Inv := by
  obtain ⟨hcfg, hmem, hclock, hst, htx, hrx, hidle⟩ := hs
  have hst' : t.statusOk := by
    rcases h.status with he | he
    · exact (congrArg BitVec.toNat he).trans_le hst
    · exact (congrArg BitVec.toNat he).trans_le (by decide)
  rw [h.frame]
  exact ⟨hcfg, h.memWf hmem, hclock, hst', htx, hrx, hidle⟩

theorem AnswersOnly.keeps_inv {s t : State} (h : AnswersOnly s t) (hs : s.Inv) : t.Inv := by
  obtain ⟨hcfg, hmem, hclock, -, htx, hrx, hidle⟩ := hs
  by_cases hp : s.phase = .run
  · rw [h.frame]
    exact ⟨hcfg, hmem, hclock, h.status, htx, hrx, fun hne => absurd hp hne⟩
  · rw [h.beforeRun hp]
    exact ⟨hcfg, hmem, hclock, h.status, htx, hrx, hidle⟩

/-- Every command keeps the invariant. An accepted enqueue latches an aligned address (R48) and starts its counters at
0 (R22, R24); `INIT` leaves the units idle as they were (R151). -/
theorem exec_keeps_inv {i : Instr} {s t : State} (h : exec i s = .next t) (hs : s.Inv) : t.Inv := by
  rcases exec_effect h with ha | ⟨-, hp, rfl⟩ | ⟨n, -, hp, ha, rfl⟩ | ⟨-, hp, rfl⟩ | ⟨-, hp, ha, rfl⟩ | ⟨-, hp, rfl⟩
  · exact ha.keeps_inv hs
  all_goals obtain ⟨hcfg, hmem, hclock, hst, htx, hrx, hidle⟩ := hs
  · exact ⟨hcfg, hmem, hclock, hst, htx, hrx, fun _ => hidle (by simp [hp])⟩
  · exact ⟨hcfg, hmem, hclock, Nat.zero_le 4, fun _ => ⟨Nat.zero_le _, ha⟩, hrx, fun hne => absurd hp hne⟩
  · exact ⟨hcfg, hmem, hclock, Nat.zero_le 4, nofun, hrx, fun hne => absurd hp hne⟩
  · exact ⟨hcfg, wf_memWrite hmem _ _ _, hclock, Nat.zero_le 4, htx, fun _ => ⟨Nat.zero_le _, ha⟩,
      fun hne => absurd hp hne⟩
  · exact ⟨hcfg, hmem, hclock, Nat.zero_le 4, htx, nofun, fun hne => absurd hp hne⟩

/-! ## Events -/

/-- A counter that is short of its 16-bit limit counts up by one. -/
theorem toNat_add_one_of_lt {a b : Half} (h : a.toNat < b.toNat) : (a + 1#16).toNat = a.toNat + 1 := by
  have := b.isLt
  simp only [BitVec.toNat_add, BitVec.toNat_ofNat]
  omega

/-- The counter wraps within its period and stays a multiple of its quantum (R15, R80). -/
theorem tickAdv_clockOk {s : State} (hcfg : s.cfg.wf) (hclock : s.clockOk) : (tickAdv s).clockOk := by
  obtain ⟨hperiod, -, hres, -, hhr, -⟩ := hcfg
  refine ⟨Nat.mod_lt _ hperiod, ?_⟩
  exact (Nat.dvd_mod_iff (hhr.trans hres)).mpr (dvd_add hclock.2 dvd_rfl)

/-- `TX_FI` never passes `TX_NFRAG` (R22): a step moves it only where it has not reached it. -/
theorem txStep_keeps_inv {s : State} (hp : s.phase = .run) (hbusy : s.txBusy = true) (hs : s.Inv) :
    (txStep s).Inv := by
  obtain ⟨hcfg, hmem, hclock, hst, htx, hrx, -⟩ := hs
  obtain ⟨hfi, haddr⟩ := htx hbusy
  rcases txStep_cases s with ⟨-, h⟩ | ⟨hne, h⟩ | ⟨-, b, h⟩ <;> rw [h]
  · exact ⟨hcfg, hmem, hclock, hst, nofun, hrx, fun hne => absurd hp hne⟩
  · have hlt : s.txFi.toNat < s.txNfrag.toNat :=
      lt_of_le_of_ne hfi fun he => hne (BitVec.eq_of_toNat_eq he)
    exact ⟨hcfg, hmem, hclock, hst, fun _ => ⟨(toNat_add_one_of_lt hlt).trans_le hlt, haddr⟩, hrx,
      fun hne => absurd hp hne⟩
  · exact ⟨hcfg, hmem, hclock, hst, htx, hrx, fun hne => absurd hp hne⟩

theorem completeRx_keeps_inv {s : State} (c : Completion) (hp : s.phase = .run) (hs : s.Inv) :
    (completeRx c s).Inv := by
  obtain ⟨hcfg, hmem, hclock, hst, htx, -, -⟩ := hs
  exact ⟨hcfg, wf_memWrite hmem _ _ _, hclock, hst, htx, nofun, fun hne => absurd hp hne⟩

theorem initDone_inv {s : State} (hs : s.Inv) : (initDone s).Inv := by
  obtain ⟨hcfg, hmem, -, -, -, -, -⟩ := hs
  exact ⟨hcfg, hmem, ⟨hcfg.1, dvd_zero _⟩, Nat.zero_le 4, nofun, nofun, fun hne => absurd rfl hne⟩

theorem takeEvent_keeps_inv (e : Event) {s : State} (hs : s.Inv) : (takeEvent e s).Inv := by
  by_cases hen : enabledByTable e s
  swap
  · rwa [takeEvent_of_not_table hen]
  rw [takeEvent_of_table hen]
  have ⟨hcfg, hmem, hclock, hst, htx, hrx, hidle⟩ := hs
  cases e with
  | tickAdv => exact ⟨hcfg, hmem, tickAdv_clockOk hcfg hclock, hst, htx, hrx, fun hne => absurd hen hne⟩
  | edge lvl => exact ⟨hcfg, hmem, hclock, hst, htx, hrx, fun hne => absurd hen hne⟩
  | txStep => exact txStep_keeps_inv hen.1 hen.2 hs
  | rxByte b =>
    obtain ⟨hp, hbusy, hroom⟩ := hen
    exact ⟨hcfg, wf_writeByte hmem (rxByteAddr s).isLt b, hclock, hst, htx,
      fun _ => ⟨(toNat_add_one_of_lt hroom).trans_le hroom, (hrx hbusy).2⟩, fun hne => absurd hp hne⟩
  | rxDone => exact completeRx_keeps_inv _ hen.1 hs
  | rxBreak => exact completeRx_keeps_inv _ hen.2.1 hs
  | bcntSet v => exact hs
  | hwrdySet v => exact hs
  | initDone => exact initDone_inv hs

/-! ## Power-on -/

theorem powerOn_inv {s : State} (hs : s.Inv) : (powerOn s).Inv := by
  obtain ⟨hcfg, -, -, -, -, -, -⟩ := hs
  exact ⟨hcfg, ⟨List.Pairwise.nil, by simp [powerOn, State.reset]⟩, ⟨hcfg.1, dvd_zero _⟩, Nat.zero_le 4, nofun, nofun,
    fun _ => ⟨rfl, rfl, rfl, rfl, rfl, rfl, rfl, rfl⟩⟩

/-- Settles O15: whatever the step is, its part of the machine keeps the invariant. -/
theorem everyStepKeepsTheInvariant : Obligations.EveryStepKeepsTheInvariant := by
  unfold Obligations.EveryStepKeepsTheInvariant
  intro s t hs hstep
  rcases step_next_cases hstep with hside | ⟨i, -, -, todo, rest, hexec⟩ | ⟨e, rest, -, rfl⟩ | ⟨-, rest, rfl⟩
  · exact hside.keeps_inv hs
  · exact exec_keeps_inv hexec hs
  · exact takeEvent_keeps_inv e (s := { s with schedule := rest }) hs
  · exact powerOn_inv (s := { s with schedule := rest }) hs

end Sys2Proof.Machine
end

section
/-! PROOFS. The host's port (R10, R11), the turns of events (R31), and who may write what (R13, R21, R23, R26, R32). -/

namespace Sys2Proof.Machine

/-! ## Which commands write which fields -/

/-- Settles O51, case by case of what a command can do. -/
theorem commandsWriteOnlyTheirFields : Obligations.CommandsWriteOnlyTheirFields := by
  unfold Obligations.CommandsWriteOnlyTheirFields
  intro i s
  obtain ⟨t, h⟩ := exec_answers_next i s
  refine ⟨t, h, ?_⟩
  rcases exec_cases h with ⟨x, -, rfl⟩ | ⟨rfl, -, rfl⟩ | ⟨-, hrun⟩
  · simp
  · simp
  -- In each case the record update fixes the fields that change, and `i` is the command they are listed for.
  rcases hrun with ⟨rfl, rfl⟩ | ⟨hi, a, b, d, hd, rfl⟩ | ⟨hi, v, rfl⟩ | ⟨rfl, rfl⟩ |
      ⟨m, mode, rfl, -, rfl⟩ | ⟨rfl, rfl⟩ | ⟨n, rfl, -, -, rfl⟩ | ⟨n, rfl, -, -, rfl⟩ | ⟨rfl, rfl⟩ |
      ⟨rfl, -, -, rfl⟩ | ⟨rfl, -, -, rfl⟩ | ⟨rfl, rfl⟩
  · simp
  · rcases hi with rfl | rfl | rfl <;> simp_all
  · rcases hi with rfl | rfl | rfl | rfl <;> simp
  all_goals simp
/-! ## The phase -/

/-- Settles O55: of all steps only `INIT`, `INIT_DONE` and power-on move the phase. -/
theorem phaseMovesOnlyForward : Obligations.PhaseMovesOnlyForward := by
  unfold Obligations.PhaseMovesOnlyForward
  intro s t hstep hne
  rcases step_next_cases hstep with hside | ⟨i, hturn, htodo, todo, rest, hexec⟩ | ⟨e, rest, hturn, rfl⟩ |
    ⟨hturn, rest, rfl⟩
  · exact absurd hside.phase_eq hne
  · rcases exec_phase hexec with heq | ⟨rfl, hp, ht⟩
    · exact absurd heq hne
    · exact .inl ⟨hp, ht, hturn, htodo⟩
  · rcases takeEvent_phase e { s with schedule := rest } with heq | ⟨rfl, hp, hready, ht⟩
    · exact absurd heq hne
    · exact .inr (.inl ⟨hp, ht, hready, hturn⟩)
  · exact .inr (.inr ⟨rfl, hturn⟩)

/-! ## The serial line -/

/-- Settles O56: every step but `TX_STEP` and power-on leaves the line's record, and `TX_STEP` appends one byte
at most. -/
theorem wireOnlyGrows : Obligations.WireOnlyGrows := by
  unfold Obligations.WireOnlyGrows
  intro s t hstep hpower
  have unchanged : t.wire = s.wire → ∃ l : List Byte, t.wire = s.wire ++ l ∧ l.length ≤ 1 ∧
      (l ≠ [] → s.schedule.head? = some (.event .txStep)) := fun h => ⟨[], by simp [h]⟩
  rcases step_next_cases hstep with hside | ⟨i, -, -, todo, rest, hexec⟩ | ⟨e, rest, hturn, rfl⟩ | ⟨hturn, -⟩
  · exact unchanged hside.wire_eq
  · exact unchanged (exec_wire hexec :)
  · rcases takeEvent_wire e { s with schedule := rest } with heq | ⟨rfl, b, hb⟩
    · exact unchanged heq
    · exact ⟨[b], hb, le_rfl, fun _ => hturn⟩
  · exact absurd hturn hpower

/-! ## The busy flags -/

/-- What a step does to `TX_BUSY` in a sound state: nothing, an accepted enqueue, a completion, an abort, power-on. -/
theorem step_txBusy {s t : State} (hs : s.Inv) (hstep : step s = .next t) :
    t.txBusy = s.txBusy ∨
    (t.txBusy = true ∧ t.r0 = 1#32 ∧ s.schedule.head? = some .host ∧
      s.hostTodo.head? = some (.wr 0 (encode (.txEnqueue t.txNfrag)))) ∨
    (t.txBusy = false ∧
      ((s.schedule.head? = some (.event .txStep) ∧ s.txFi = s.txNfrag) ∨
       (s.schedule.head? = some .host ∧ s.hostTodo.head? = some (.wr 0 (encode .txAbort))) ∨
       s.schedule.head? = some .powerOn)) := by
  obtain ⟨-, -, -, -, -, -, hidle⟩ := hs
  rcases step_next_cases hstep with hside | ⟨i, hturn, htodo, todo, rest, hexec⟩ | ⟨e, rest, hturn, rfl⟩ |
    ⟨hturn, rest, rfl⟩
  · exact .inl hside.txBusy_eq
  · rcases exec_txBusy hexec with heq | ⟨rfl, hb, hr⟩ | ⟨rfl, hb⟩
    · exact .inl heq
    · exact .inr (.inl ⟨hb, hr, hturn, htodo⟩)
    · exact .inr (.inr ⟨hb, .inr (.inl ⟨hturn, htodo⟩)⟩)
  · rcases takeEvent_txBusy e { s with schedule := rest } with heq | ⟨hb, ⟨rfl, hfi⟩ | hp⟩
    · exact .inl heq
    · exact .inr (.inr ⟨hb, .inl ⟨hturn, hfi⟩⟩)
    · obtain ⟨-, -, -, -, -, htx, -, -⟩ := hidle (by simp [show s.phase = .initWait from hp])
      exact .inl (hb.trans htx.symm)
  · exact .inr (.inr ⟨rfl, .inr (.inr hturn)⟩)

/-- What a step does to `RX_BUSY` in a sound state: nothing, an accepted enqueue, a reception's end, an abort,
power-on. -/
theorem step_rxBusy {s t : State} (hs : s.Inv) (hstep : step s = .next t) :
    t.rxBusy = s.rxBusy ∨
    (t.rxBusy = true ∧ t.r0 = 1#32 ∧ s.schedule.head? = some .host ∧
      s.hostTodo.head? = some (.wr 0 (encode .rxEnqueue))) ∨
    (t.rxBusy = false ∧
      (s.schedule.head? = some (.event .rxDone) ∨ s.schedule.head? = some (.event .rxBreak) ∨
       (s.schedule.head? = some .host ∧ s.hostTodo.head? = some (.wr 0 (encode .rxAbort))) ∨
       s.schedule.head? = some .powerOn)) := by
  obtain ⟨-, -, -, -, -, -, hidle⟩ := hs
  rcases step_next_cases hstep with hside | ⟨i, hturn, htodo, todo, rest, hexec⟩ | ⟨e, rest, hturn, rfl⟩ |
    ⟨hturn, rest, rfl⟩
  · exact .inl hside.rxBusy_eq
  · rcases exec_rxBusy hexec with heq | ⟨rfl, hb, hr⟩ | ⟨rfl, hb⟩
    · exact .inl heq
    · exact .inr (.inl ⟨hb, hr, hturn, htodo⟩)
    · exact .inr (.inr ⟨hb, .inr (.inr (.inl ⟨hturn, htodo⟩))⟩)
  · rcases takeEvent_rxBusy e { s with schedule := rest } with heq | ⟨hb, rfl | rfl | hp⟩
    · exact .inl heq
    · exact .inr (.inr ⟨hb, .inl hturn⟩)
    · exact .inr (.inr ⟨hb, .inr (.inl hturn)⟩)
    · obtain ⟨-, -, -, -, -, -, hrx, -⟩ := hidle (by simp [show s.phase = .initWait from hp])
      exact .inl (hb.trans hrx.symm)
  · exact .inr (.inr ⟨rfl, .inr (.inr (.inr hturn))⟩)

/-- Settles O57, from what a step does to each flag. -/
theorem busyFlagsChangeOnlyAsListed : Obligations.BusyFlagsChangeOnlyAsListed := by
  unfold Obligations.BusyFlagsChangeOnlyAsListed
  intro s t hs hstep
  refine ⟨fun h0 h1 => ?_, fun h1 h0 => ?_, fun h0 h1 => ?_, fun h1 h0 => ?_⟩
  · rcases step_txBusy hs hstep with heq | ⟨-, hr, hturn, htodo⟩ | ⟨hb, -⟩
    · simp [heq, h0] at h1
    · exact ⟨hr, hturn, t.txNfrag, encode_txEnqueue t.txNfrag ▸ htodo, rfl⟩
    · simp [hb] at h1
  · rcases step_txBusy hs hstep with heq | ⟨hb, -⟩ | ⟨-, hwhy⟩
    · simp [heq, h1] at h0
    · simp [hb] at h0
    · exact hwhy
  · rcases step_rxBusy hs hstep with heq | ⟨-, hr, hturn, htodo⟩ | ⟨hb, -⟩
    · simp [heq, h0] at h1
    · exact ⟨hr, hturn, htodo⟩
    · simp [hb] at h1
  · rcases step_rxBusy hs hstep with heq | ⟨hb, -⟩ | ⟨-, hwhy⟩
    · simp [heq, h1] at h0
    · simp [hb] at h0
    · exact hwhy

/-! ## Turns -/

/-- Settles O7, by the model's test agreeing with R31's table. -/
theorem eventActsExactlyWhenEnabled : Obligations.EventActsExactlyWhenEnabled := by
  unfold Obligations.EventActsExactlyWhenEnabled
  intro s e rest hsch
  rw [step_of_event hsch]
  have hsame : enabledByTable e { s with schedule := rest } ↔ enabledByTable e s := by cases e <;> rfl
  constructor
  · intro hen
    rw [takeEvent_of_table (hsame.mpr hen)]
  · intro hdis
    rw [takeEvent_of_not_table (mt hsame.mp hdis)]

/-- Settles O8: the host's turn passes. -/
theorem hostIsHeldInInitWait : Obligations.HostIsHeldInInitWait := by
  unfold Obligations.HostIsHeldInInitWait
  intro s rest hp hsch
  rw [step_of_host hsch]
  exact hostTurn_of_initWait (s := { s with schedule := rest }) hp

/-! ## The host's port -/

theorem issueCommand_of_decode {w : Word} {i : Instr} (h : decode w = .ok i) (s : State) :
    issueCommand w s = exec i s := by simp only [issueCommand, h]

/-- Settles O5: the host's step on `CMD` issues the command. -/
theorem stepRunsTheDecodedCommand : Obligations.StepRunsTheDecodedCommand := by
  unfold Obligations.StepRunsTheDecodedCommand
  rintro s w i todo rest ⟨hsch, htodo, hp⟩ hd
  rw [step_of_hostStep hsch htodo hp]
  exact issueCommand_of_decode hd _

theorem decode_of_decodeTableWord {nbits w : Nat} {i : Instr} (h : decodeTableWord nbits w = some i) :
    decode (tableWord nbits w) = .ok i := by
  unfold decodeTableWord at h
  split at h
  · next hd => rw [hd, Option.some.inj h]
  · cases h

/-- Settles O6, as the host's write of the placed word. -/
theorem placedWordRunsNext : Obligations.PlacedWordRunsNext := by
  unfold Obligations.PlacedWordRunsNext
  intro s nbits w i hp hd
  exact stepRunsTheDecodedCommand (s.withFetchWord nbits w) (tableWord nbits w) i s.hostTodo s.schedule
    ⟨rfl, rfl, hp⟩ (decode_of_decodeTableWord hd)

/-- R10's numbering of the registers, with `CMD` read as 0. -/
theorem readPort_portReg (s : State) (n : Fin 8) :
    readPort s (portReg n) = ![0#32, s.st, s.a0, s.a1, s.a2, s.a3, s.r0, s.r1] n := by
  fin_cases n <;> rfl

/-- Settles O9, by R10's numbering. -/
theorem hostReadReturnsTheRegister : Obligations.HostReadReturnsTheRegister := by
  unfold Obligations.HostReadReturnsTheRegister
  rintro s n todo rest ⟨hsch, htodo, hp⟩
  rw [step_of_hostStep hsch htodo hp, takeHostStep, readPort_portReg]
  rfl

/-- Which register a host write reaches, by its number (R10, R11). -/
theorem writePort_portReg (s : State) (n : Fin 8) (v : Word) : writePort s (portReg n) v = { s with
    a0 := if n = 2 then v else s.a0
    a1 := if n = 3 then v else s.a1
    a2 := if n = 4 then v else s.a2
    a3 := if n = 5 then v else s.a3 } := by
  fin_cases n <;> rfl

/-- Settles O10, by R10's numbering. -/
theorem hostWriteReachesOnlyOperandRegisters : Obligations.HostWriteReachesOnlyOperandRegisters := by
  unfold Obligations.HostWriteReachesOnlyOperandRegisters
  rintro s n v todo rest hn ⟨hsch, htodo, hp⟩
  rw [step_of_hostStep hsch htodo hp, takeHostStep, if_neg (mt (portReg_eq_cmd_iff n).mp hn), writePort_portReg]

end Sys2Proof.Machine
end

section
/-! PROOFS. Memory (`20_memory.md`): what `MemRead` and `MemWrite` do byte by byte (R42, R43), which commands and events
store and where (R49), and the host's own accesses (R50). -/

namespace Sys2Proof.Machine

/-! ## Reads and writes byte by byte -/

/-- The addresses from `a + 1` upward are those from `a` upward but the first. -/
theorem toNat_add_one_add_mod (a : Word) (i : Nat) :
    ((a + 1#32).toNat + i) % 2 ^ 32 = (a.toNat + (i + 1)) % 2 ^ 32 := by
  rw [BitVec.toNat_add, Nat.mod_add_mod, BitVec.toNat_ofNat, add_assoc, add_comm i]

theorem readLE_eq_sum (m : Memory) (a : Word) (n : Nat) :
    readLE m a n = ∑ i ∈ Finset.range n, (readByte m ((a.toNat + i) % 2 ^ 32)).toNat * 256 ^ i := by
  induction n generalizing a with
  | zero => rfl
  | succ n ih =>
    rw [readLE, ih, Finset.sum_range_succ', Finset.mul_sum, add_comm]
    congr 1
    · refine Finset.sum_congr rfl fun i _ => ?_
      rw [toNat_add_one_add_mod]
      ring
    · rw [add_zero, Nat.mod_eq_of_lt a.isLt, pow_zero, mul_one]

theorem sizeBytes_le (n : AccessSize) : sizeBytes n ≤ 4 := by cases n <;> decide

theorem toNat_memRead (m : Memory) (a : Word) (n : AccessSize) :
    (memRead m a n).toNat = readLE m a (sizeBytes n) := by
  refine Nat.mod_eq_of_lt ((readLE_lt m a (sizeBytes n)).trans_le ?_)
  exact Nat.pow_le_pow_right (by decide) (sizeBytes_le n)

theorem toNat_memReadHalf (m : Memory) (a : Word) : (memReadHalf m a).toNat = readLE m a 2 :=
  Nat.mod_eq_of_lt (readLE_lt m a 2)

/-- Settles O13: neither width cuts off a bit of the sum. -/
theorem memReadIsTheLittleEndianSum : Obligations.MemReadIsTheLittleEndianSum := by
  unfold Obligations.MemReadIsTheLittleEndianSum
  intro m a
  refine ⟨fun n => ?_, ?_⟩
  · rw [toNat_memRead, readLE_eq_sum]
  · rw [toNat_memReadHalf, readLE_eq_sum]

/-- The first of at most 2^32 bytes from `a` upward is none of the others. -/
theorem toNat_not_mem_byteAddrs_add_one (a : Word) {n : Nat} (hn : n < 2 ^ 32) :
    a.toNat ∉ byteAddrs (a + 1#32) n := by
  intro hmem
  obtain ⟨i, hi, heq⟩ := mem_byteAddrs.mp hmem
  rw [toNat_add_one_add_mod] at heq
  have := a.isLt
  omega

/-- Byte `i` of a write holds bits `8i+7..8i`; no later byte of the same write overwrites it. -/
theorem readByte_writeLE {m : Memory} (h : Memory.wf m) (a : Word) {n i : Nat} (hn : n ≤ 2 ^ 32) (hi : i < n)
    (v : Nat) : readByte (writeLE m a n v) ((a.toNat + i) % 2 ^ 32) = BitVec.ofNat 8 (v / 256 ^ i) := by
  induction n generalizing m a v i with
  | zero => exact absurd hi (Nat.not_lt_zero i)
  | succ n ih =>
    have hw := wf_writeByte h a.isLt (BitVec.ofNat 8 v)
    rw [writeLE]
    cases i with
    | zero =>
      rw [add_zero, Nat.mod_eq_of_lt a.isLt, readByte_writeLE_of_not_mem hw (toNat_not_mem_byteAddrs_add_one a hn),
        readByte_writeByte h, if_pos rfl, pow_zero, Nat.div_one]
    | succ i =>
      rw [← toNat_add_one_add_mod, ih hw _ (Nat.le_of_succ_le hn) (Nat.lt_of_succ_lt_succ hi), Nat.div_div_eq_div_mul,
        ← pow_succ']

theorem extractLsb'_byte (v : Word) (i : Nat) : v.extractLsb' (8 * i) 8 = BitVec.ofNat 8 (v.toNat / 256 ^ i) := by
  rw [BitVec.extractLsb', Nat.shiftRight_eq_div_pow, Nat.pow_mul]

/-- Settles O14, from what a write does to each of its bytes and its frame. -/
theorem memWriteStoresLittleEndianBytes : Obligations.MemWriteStoresLittleEndianBytes := by
  unfold Obligations.MemWriteStoresLittleEndianBytes
  intro m a v n h
  refine ⟨fun i hi => ?_, fun x hx => ?_⟩
  · rw [extractLsb'_byte]
    exact readByte_writeLE h a ((sizeBytes_le n).trans (by decide)) hi v.toNat
  · refine readByte_memWrite_of_not_mem h fun hmem => ?_
    obtain ⟨i, hi, heq⟩ := mem_byteAddrs.mp hmem
    exact hx i hi heq

/-! ## Which commands and events store, and where -/

/-- What a command does to memory: nothing, unless it is an accepted `RX_ENQUEUE` (R131). -/
theorem exec_mem {i : Instr} {s t : State} (h : exec i s = .next t) :
    t.mem = s.mem ∨
    ((i = .rxEnqueue ∧ s.phase = .run ∧ s.a0.toNat % 4 = 0 ∧ s.rxBusy = false) ∧
      t.mem = memWrite s.mem (completionAddr s.a0) .four 0#32) := by
  rcases exec_cases h with ⟨x, -, rfl⟩ | ⟨-, -, rfl⟩ | ⟨hp, hrun⟩
  · exact .inl rfl
  · exact .inl rfl
  · rcases hrun with ⟨-, rfl⟩ | ⟨-, a, b, d, -, rfl⟩ | ⟨-, v, rfl⟩ | ⟨-, rfl⟩ | ⟨m, mode, -, -, rfl⟩ | ⟨-, rfl⟩ |
      ⟨n, -, -, -, rfl⟩ | ⟨n, -, -, -, rfl⟩ | ⟨-, rfl⟩ | ⟨-, -, -, rfl⟩ | ⟨hi, ha, hb, rfl⟩ | ⟨-, rfl⟩
    iterate 10 exact .inl rfl
    · exact .inr ⟨⟨hi, hp, ha, hb⟩, rfl⟩
    · exact .inl rfl

/-- Settles O52: the one command that stores does so by `MemWrite` of the completion word. -/
theorem commandsStoreOnlyTheCompletionWord : Obligations.CommandsStoreOnlyTheCompletionWord := by
  unfold Obligations.CommandsStoreOnlyTheCompletionWord
  intro i s t hwf h
  rcases exec_mem h with hmem | ⟨haccepted, hmem⟩ <;> rw [hmem]
  · exact ⟨fun _ _ _ => rfl, fun _ _ => rfl⟩
  · exact ⟨fun _ _ hx => readByte_memWrite_of_not_mem hwf hx, fun hnot => absurd haccepted hnot⟩

/-- The frame of an event: every byte it does not name reads as before (R134, R135, R136). -/
theorem readByte_eventEffect_of_not_mem {e : Event} {s : State} {x : Nat} (h : Memory.wf s.mem)
    (hx : x ∉ eventWrites e s) : readByte (eventEffect e s).mem x = readByte s.mem x := by
  cases e with
  | rxByte b => exact (readByte_writeByte h _ b x).trans (if_neg (mt List.mem_singleton.mpr hx))
  | rxDone => exact readByte_memWrite_of_not_mem h hx
  | rxBreak => exact readByte_memWrite_of_not_mem h hx
  | txStep => rcases txStep_cases s with ⟨-, ht⟩ | ⟨-, ht⟩ | ⟨-, b, ht⟩ <;> rw [eventEffect, ht]
  | tickAdv | edge | bcntSet | hwrdySet | initDone => rfl

/-- Settles O53: an enabled event keeps the bytes it does not name, a disabled one all. -/
theorem eventsStoreOnlyWhereTheyName : Obligations.EventsStoreOnlyWhereTheyName := by
  unfold Obligations.EventsStoreOnlyWhereTheyName
  intro e s hwf x hx
  by_cases hen : enabledByTable e s
  · rw [takeEvent_of_table hen]
    exact readByte_eventEffect_of_not_mem hwf (hx hen)
  · rw [takeEvent_of_not_table hen]

/-! ## The host's own accesses -/

theorem hostAligned_iff (a : Word) (n : AccessSize) : hostAligned a n = true ↔ a.toNat % sizeBytes n = 0 :=
  decide_eq_true_iff

/-- Settles O11: the host's access at its turn, where it is aligned. -/
theorem hostLoadAndStoreReachMemory : Obligations.HostLoadAndStoreReachMemory := by
  unfold Obligations.HostLoadAndStoreReachMemory
  intro s a v n todo rest ha
  have haligned := (hostAligned_iff a n).mpr ha
  constructor <;> rintro ⟨hsch, htodo, hp⟩ <;> rw [step_of_hostStep hsch htodo hp]
  · exact if_pos haligned
  · exact if_pos haligned

/-- Settles O12: the host's access at its turn, where it is not aligned. -/
theorem misalignedHostAccessStops : Obligations.MisalignedHostAccessStops := by
  unfold Obligations.MisalignedHostAccessStops
  intro s a v n todo rest ha
  have hmisaligned := mt (hostAligned_iff a n).mp ha
  constructor <;> rintro ⟨hsch, htodo, hp⟩ <;> rw [step_of_hostStep hsch htodo hp]
  · exact if_neg hmisaligned
  · exact if_neg hmisaligned

end Sys2Proof.Machine
end

section
/-! PROOFS. The decoder run forward: the command a word's fields give (R60 to R62), and what settles the round trip of
encoding and decoding. -/

namespace Sys2Proof

/-! ## The fields of a word -/

/-- An opcode above an operand: the opcode is read back (R60). -/
theorem opcodeField_encode (i : Instr) : opcodeField (encode i) = opcode i := by
  ext k hk
  simp [opcodeField, encode, hk, show 24 + k < 32 by omega]

/-- An opcode above an operand: the operand is read back (R60). -/
theorem operand_encode (i : Instr) : (encode i).extractLsb' 0 24 = operandField i := by
  ext k hk
  simp [encode, hk, show k < 32 by omega]

/-- A word with the operand `x`, a number of `k` bits, holds `x` in its low `k` bits and 0 in the further operand bits:
the converse of `operand_eq_low_field` (R61). -/
theorem low_field_of_operand {w : Word} {k : Nat} {x : BitVec k} (hk : k ≤ 24)
    (h : w.extractLsb' 0 24 = x.setWidth 24) :
    w.extractLsb' 0 k = x ∧ w.extractLsb' k (24 - k) = 0#(24 - k) := by
  have hbit : ∀ j < 24, w.getLsbD j = x.getLsbD j := fun j hj => by
    simpa [hj] using congrArg (fun b : BitVec 24 => b.getLsbD j) h
  constructor
  · refine BitVec.eq_of_getLsbD_eq fun j hj => ?_
    simpa [hj] using hbit j (by omega)
  · refine BitVec.eq_of_getLsbD_eq fun j hj => ?_
    simpa [hj] using hbit (k + j) (by omega)

/-! ## The three formats -/

theorem decodeZ_of_operand {w : Word} (i : Instr) (h : w.extractLsb' 0 24 = 0#24) : decodeZ w i = .ok i := if_pos h

theorem decodeM_of_operand {w : Word} {m : BitVec 3} (hl : legalMode m = true)
    (h : w.extractLsb' 0 24 = m.setWidth 24) : decodeM w = .ok (.setMode m) := by
  obtain ⟨hm, hz⟩ := low_field_of_operand (by decide) h
  rw [decodeM, if_pos hz, modeField, hm, if_pos hl]

theorem decodeN_of_operand {w : Word} {n : Half} (h : w.extractLsb' 0 24 = n.setWidth 24) :
    decodeN w = .ok (.txEnqueue n) := by
  obtain ⟨hn, hz⟩ := low_field_of_operand (by decide) h
  rw [decodeN, if_pos hz, nfragsField, hn]

/-! ## The decoder -/

/-- A word decodes to the well-formed command whose opcode and operand it holds: the converse of `fields_of_decode`. -/
theorem decode_of_fields {w : Word} {i : Instr} (hwf : i.wf = true) (hop : opcodeField w = opcode i)
    (hoperand : w.extractLsb' 0 24 = operandField i) : decode w = .ok i := by
  rw [decode, hop]
  cases i with
  | setMode m => exact decodeM_of_operand hwf hoperand
  | txEnqueue n => exact decodeN_of_operand hoperand
  | init | service | tickCount | tickHrcount | tickDelta | tickCompare | getEvent | getMode | blinkUpdate | txAbort
  | txQuery | rxEnqueue | rxAbort | rxQuery => exact decodeZ_of_operand _ hoperand

/-- Settles O1: the word of a command holds its opcode and its operand, and the decoder reads both. -/
theorem decodeOfEncodeIsTheCommand : Obligations.DecodeOfEncodeIsTheCommand := by
  unfold Obligations.DecodeOfEncodeIsTheCommand
  intro i hwf
  exact decode_of_fields hwf (opcodeField_encode i) (operand_encode i)

/-- Settles O2, by what a decoded command says of its word. -/
theorem decodedWordIsTheEncoding : Obligations.DecodedWordIsTheEncoding := by
  unfold Obligations.DecodedWordIsTheEncoding
  intro w i hd
  obtain ⟨hwf, -⟩ := fields_of_decode hd
  exact ⟨hwf, encode_of_decode hd⟩

/-- Settles O4: the decoder run on six closed words. -/
theorem sampleWordsStandForTheirCommands : Obligations.SampleWordsStandForTheirCommands := by
  unfold Obligations.SampleWordsStandForTheirCommands
  decide

end Sys2Proof
end

section
/-! SUPPORT. The rows of R62's table: a word is a command exactly when it matches one, with a mode in 0..4 (R61, R65). -/

namespace Sys2Proof

open Laws.EncodesInItsRow (row Statement)

/-- Every command's word matches the command's own row (R62). -/
theorem encode_matches_row (i : Instr) : Statement i := by
  cases i with
  | init => exact Laws.EncodesInItsRow.init
  | service => exact Laws.EncodesInItsRow.service
  | tickCount => exact Laws.EncodesInItsRow.tickCount
  | tickHrcount => exact Laws.EncodesInItsRow.tickHrcount
  | tickDelta => exact Laws.EncodesInItsRow.tickDelta
  | tickCompare => exact Laws.EncodesInItsRow.tickCompare
  | getEvent => exact Laws.EncodesInItsRow.getEvent
  | setMode m => exact Laws.EncodesInItsRow.setMode m
  | getMode => exact Laws.EncodesInItsRow.getMode
  | blinkUpdate => exact Laws.EncodesInItsRow.blinkUpdate
  | txEnqueue n => exact Laws.EncodesInItsRow.txEnqueue n
  | txAbort => exact Laws.EncodesInItsRow.txAbort
  | txQuery => exact Laws.EncodesInItsRow.txQuery
  | rxEnqueue => exact Laws.EncodesInItsRow.rxEnqueue
  | rxAbort => exact Laws.EncodesInItsRow.rxAbort
  | rxQuery => exact Laws.EncodesInItsRow.rxQuery

/-- The table's rows are the rows of the commands, whatever the fields. -/
theorem commandRows_eq_map_row : commandRows =
    [.init, .service, .tickCount, .tickHrcount, .tickDelta, .tickCompare, .getEvent, .setMode 0#3, .getMode,
      .blinkUpdate, .txEnqueue 0#16, .txAbort, .txQuery, .rxEnqueue, .rxAbort, .rxQuery].map row := rfl

theorem row_mem_commandRows (i : Instr) : row i ∈ commandRows := by
  cases i <;> simp [commandRows, row]

theorem exists_row_of_mem {r : Word × Word} (h : r ∈ commandRows) : ∃ i, row i = r := by
  rw [commandRows_eq_map_row] at h
  obtain ⟨i, -, hi⟩ := List.mem_map.mp h
  exact ⟨i, hi⟩

/-- A mask that keeps bits `k` to `k + n - 1` keeps that field (R62). -/
theorem field_of_masked {w mask r : Word} (k n : Nat) (hw : w &&& mask = r)
    (hmask : mask.extractLsb' k n = BitVec.allOnes n) : w.extractLsb' k n = r.extractLsb' k n := by
  rw [← hw, BitVec.extractLsb'_and, hmask, BitVec.and_allOnes]

/-- `mode` as R65's bound reads it. -/
theorem toNat_and_seven (w : Word) : (w &&& 7#32).toNat = (modeField w).toNat := by
  have hlow : w.toNat &&& 7 = w.toNat % 8 := Nat.and_two_pow_sub_one_eq_mod w.toNat 3
  simpa [modeField] using hlow

/-- A row with a full mask holds one word, the word of its command. -/
theorem eq_encode_of_full_mask {w : Word} (i : Instr) (hfull : (row i).1 = BitVec.allOnes 32)
    (hw : w &&& (row i).1 = (row i).2) : w = encode i := by
  have hi : encode i &&& (row i).1 = (row i).2 := encode_matches_row i
  rw [hfull, BitVec.and_allOnes] at hw hi
  exact hw.trans hi.symm

/-- The opcode tells `SET_MODE` from every other command (R60). -/
theorem eq_setMode_of_opcode {i : Instr} (h : opcode i = 0x30#8) : ∃ m, i = .setMode m := by
  cases i
  case setMode m => exact ⟨m, rfl⟩
  all_goals simp [opcode] at h

/-- The word of a command is not reserved: it matches the command's row, and `SET_MODE`'s row only with a legal mode
(R65). -/
theorem not_reservedWord_of_decode {w : Word} {i : Instr} (h : decode w = .ok i) : ¬ reservedWord w := by
  obtain ⟨hwf, hop, hoperand⟩ := fields_of_decode h
  rintro (hnone | ⟨hrow, hmode⟩)
  · refine hnone (row i) (row_mem_commandRows i) ?_
    rw [← encode_of_decode h]
    exact encode_matches_row i
  · have hopcode : opcodeField w = 0x30#8 := field_of_masked 24 8 hrow (by decide)
    obtain ⟨m, rfl⟩ := eq_setMode_of_opcode (hop.symm.trans hopcode)
    obtain ⟨hm, -⟩ := low_field_of_operand (by decide) hoperand
    have hle : m.toNat ≤ 4 := of_decide_eq_true hwf
    rw [toNat_and_seven, modeField, hm] at hmode
    omega

/-- A word that matches a row, with a mode in 0..4 where the row is `SET_MODE`'s, is the word of a command. -/
theorem decode_of_matches_row {w : Word} (i : Instr) (hrow : w &&& (row i).1 = (row i).2)
    (hmode : w &&& 0xFFFFFFF8#32 = 0x30000000#32 → (w &&& 7#32).toNat ≤ 4) : ∃ j, decode w = .ok j := by
  cases i with
  | setMode m =>
    change w &&& 0xFFFFFFF8#32 = 0x30000000#32 at hrow
    have hl : legalMode (modeField w) = true := decide_eq_true ((toNat_and_seven w).symm.trans_le (hmode hrow))
    have hop : opcodeField w = 0x30#8 := field_of_masked 24 8 hrow (by decide)
    have hzero : w.extractLsb' 3 21 = 0#21 := field_of_masked 3 21 hrow (by decide)
    exact ⟨.setMode (modeField w), decode_of_fields hl hop (operand_eq_low_field w (k := 3) (by decide) hzero)⟩
  | txEnqueue n =>
    change w &&& 0xFFFF0000#32 = 0x40000000#32 at hrow
    have hop : opcodeField w = 0x40#8 := field_of_masked 24 8 hrow (by decide)
    have hzero : w.extractLsb' 16 8 = 0#8 := field_of_masked 16 8 hrow (by decide)
    exact ⟨.txEnqueue (nfragsField w), decode_of_fields rfl hop (operand_eq_low_field w (k := 16) (by decide) hzero)⟩
  | init | service | tickCount | tickHrcount | tickDelta | tickCompare | getEvent | getMode | blinkUpdate | txAbort
  | txQuery | rxEnqueue | rxAbort | rxQuery =>
    rw [eq_encode_of_full_mask _ rfl hrow]
    exact ⟨_, decodeOfEncodeIsTheCommand _ rfl⟩

/-- The reserved words of R65, read off the table, are the words the decoder refuses. -/
theorem reservedWord_iff_decode_error (w : Word) : reservedWord w ↔ ∃ e, decode w = .error e := by
  constructor
  · intro hres
    cases hd : decode w with
    | ok i => exact absurd hres (not_reservedWord_of_decode hd)
    | error e => exact ⟨e, rfl⟩
  · rintro ⟨e, he⟩
    by_contra hres
    obtain ⟨hrow, hmode⟩ := not_or.mp hres
    push Not at hrow hmode
    obtain ⟨r, hr, hwr⟩ := hrow
    obtain ⟨i, rfl⟩ := exists_row_of_mem hr
    obtain ⟨j, hj⟩ := decode_of_matches_row i hwr hmode
    exact nomatch he.symm.trans hj

end Sys2Proof
end

section
/-! PROOFS. Reserved words raise `ILLEGAL` (R65), and commands out of sequence raise `SEQ` (R63, R161). -/

namespace Sys2Proof.Machine

/-! ## Reserved words -/

theorem issueCommand_of_reserved {w : Word} (h : reservedWord w) (s : State) :
    issueCommand w s = .next { s with st := 2#32 } := by
  obtain ⟨e, he⟩ := (reservedWord_iff_decode_error w).mp h
  rw [issueCommand, he]
  rfl

/-- Settles O3: the words no row admits are those the decoder refuses, and the host's write of one raises `ILLEGAL`. -/
theorem reservedWordRaisesIllegal : Obligations.ReservedWordRaisesIllegal := by
  unfold Obligations.ReservedWordRaisesIllegal
  refine ⟨fun w s hres => issueCommand_of_reserved hres s, ?_, ?_⟩
  · rintro w s todo rest hres ⟨hsch, htodo, hp⟩
    rw [step_of_hostStep hsch htodo hp]
    exact issueCommand_of_reserved hres _
  · intro w hres
    cases hd : decode w with
    | error e => exact absurd ((reservedWord_iff_decode_error w).mpr ⟨e, hd⟩) hres
    | ok i =>
      obtain ⟨hwf, -⟩ := fields_of_decode hd
      exact ⟨i, hwf, rfl⟩

/-! ## Commands out of sequence -/

/-- Every well-formed command but `INIT` is under the phase check (R63). -/
theorem exec_eq_whenRun {i : Instr} (hwf : i.wf = true) (hi : i ≠ .init) : ∃ body, ∀ s, exec i s = whenRun s body := by
  cases i with
  | init => exact absurd rfl hi
  | service => exact ⟨_, exec_service⟩
  | tickCount => exact ⟨_, exec_tickCount⟩
  | tickHrcount => exact ⟨_, exec_tickHrcount⟩
  | tickDelta => exact ⟨_, exec_tickDelta⟩
  | tickCompare => exact ⟨_, exec_tickCompare⟩
  | getEvent => exact ⟨_, exec_getEvent⟩
  | setMode m =>
    obtain ⟨mode, hm⟩ := blinkModeOf_of_legal hwf
    exact ⟨_, exec_setMode hm⟩
  | getMode => exact ⟨_, exec_getMode⟩
  | blinkUpdate => exact ⟨_, exec_blinkUpdate⟩
  | txEnqueue n => exact ⟨_, exec_txEnqueue n⟩
  | txAbort => exact ⟨_, exec_txAbort⟩
  | txQuery => exact ⟨_, exec_txQuery⟩
  | rxEnqueue => exact ⟨_, exec_rxEnqueue⟩
  | rxAbort => exact ⟨_, exec_rxAbort⟩
  | rxQuery => exact ⟨_, exec_rxQuery⟩

/-- Settles O17: the phase check of every command but `INIT`, and `INIT`'s own. -/
theorem commandOutOfSequenceRaisesSeq : Obligations.CommandOutOfSequenceRaisesSeq := by
  unfold Obligations.CommandOutOfSequenceRaisesSeq
  constructor
  · intro i s hwf hi hp
    obtain ⟨body, hbody⟩ := exec_eq_whenRun hwf hi
    rw [hbody, whenRun_of_not_run hp]
    rfl
  · intro s hp
    rw [exec_init, if_neg hp]
    rfl

end Sys2Proof.Machine
end

section
/-! SUPPORT. The tick counter and its samples: what `TICK_ADV` and the tick commands of R80 to R84 leave in `RUN`, in
nanoseconds. -/

namespace Sys2Proof.Machine

/-! ## The counter (R80) -/

/-- A counter on the quantum's grid reaches the end of the period exactly, so it never jumps over it (R15, R80). -/
theorem add_quantum_mod_period {n q p : Nat} (hn : q ∣ n) (hp : q ∣ p) (h : n < p) :
    (n + q) % p = n + q ∨ (n + q) % p = 0 := by
  have hle : n + q ≤ p := Nat.le_of_lt_add_of_dvd (Nat.add_lt_add_right h q) (dvd_add hn dvd_rfl) hp
  rcases hle.lt_or_eq with hlt | heq
  · exact .inl (Nat.mod_eq_of_lt hlt)
  · exact .inr (heq ▸ Nat.mod_self _)

/-- `k` turns of `TICK_ADV` in `RUN` move the counter alone, by `k` quanta modulo the period. -/
theorem afterTicks_of_run {s : State} (hp : s.phase = .run) (hlt : s.timeNs < s.cfg.tickPeriodNs) (k : Nat) :
    afterTicks k s = { s with timeNs := (s.timeNs + k * s.cfg.hrResNs) % s.cfg.tickPeriodNs } := by
  induction k with
  | zero =>
    rw [Nat.zero_mul, Nat.add_zero, Nat.mod_eq_of_lt hlt]
    rfl
  | succ k ih =>
    have hnext : afterTicks (k + 1) s = takeEvent .tickAdv (afterTicks k s) := Function.iterate_succ_apply' _ k s
    rw [hnext, ih, takeEvent_tickAdv]
    simp only [if_pos hp, Nat.mod_add_mod, Nat.add_assoc, Nat.succ_mul]

/-! ## `floor_to` -/

theorem floorTo_le (n q : Nat) : floorTo n q ≤ n := Nat.div_mul_le_self n q

theorem lt_floorTo_add {q : Nat} (hq : 0 < q) (n : Nat) : n < floorTo n q + q := Nat.lt_div_mul_add hq

theorem floorTo_mono {m n : Nat} (h : m ≤ n) (q : Nat) : floorTo m q ≤ floorTo n q :=
  Nat.mul_le_mul_right q (Nat.div_le_div_right h)

theorem floorTo_of_dvd {n q : Nat} (h : q ∣ n) : floorTo n q = n := Nat.div_mul_cancel h

theorem floorTo_one (n : Nat) : floorTo n 1 = n := floorTo_of_dvd (one_dvd n)

/-! ## The sampling commands (R81, R82) -/

theorem tickOf_nsec_le (n : Nat) : (tickOf n).nsec.toNat ≤ 999999999 := of_decide_eq_true (tickOf_valid n)

/-- A number of nanoseconds up to the counter survives `tick_of` (R85). -/
theorem nsOf_tickOf_of_le_timeNs {s : State} {n : Nat} (hcfg : s.cfg.wf) (hlt : s.timeNs < s.cfg.tickPeriodNs)
    (h : n ≤ s.timeNs) : nsOf (tickOf n) = n := by
  obtain ⟨-, hperiod, -⟩ := hcfg
  exact nsOf_tickOf (h.trans_lt (hlt.trans_le hperiod))

theorem nsOf_currentTick {s : State} (hcfg : s.cfg.wf) (hlt : s.timeNs < s.cfg.tickPeriodNs) :
    nsOf (currentTick s) = floorTo s.timeNs s.cfg.tickResNs :=
  nsOf_tickOf_of_le_timeNs hcfg hlt (floorTo_le _ _)

theorem exec_tickCount_of_run {s : State} (hp : s.phase = .run) :
    exec .tickCount s = .next (finish (writeTick s (currentTick s))) := by
  rw [exec_tickCount, whenRun_of_run hp]

theorem exec_tickHrcount_of_run {s : State} (hp : s.phase = .run) :
    exec .tickHrcount s = .next (finish (writeTick s (tickOf s.timeNs))) := by
  rw [exec_tickHrcount, whenRun_of_run hp]

/-- What a sampling command floors the counter to: `TICK_RES_NS` for `TICK_COUNT`, nothing for `TICK_HRCOUNT`. -/
def sampleRes (i : Instr) (c : Config) : Nat := if i = .tickCount then c.tickResNs else 1

/-- Both sampling commands return a valid Tick of the floored counter. -/
theorem exec_sample {i : Instr} {s u : State} (hi : i = .tickHrcount ∨ i = .tickCount) (hp : s.phase = .run)
    (hcfg : s.cfg.wf) (hlt : s.timeNs < s.cfg.tickPeriodNs) (h : exec i s = .next u) :
    pairNs u.r0 u.r1 = floorTo s.timeNs (sampleRes i s.cfg) ∧ u.r1.toNat ≤ 999999999 := by
  rcases hi with rfl | rfl
  · rw [exec_tickHrcount_of_run hp] at h
    cases h
    exact ⟨(nsOf_tickOf_of_le_timeNs hcfg hlt le_rfl).trans (floorTo_one _).symm, tickOf_nsec_le _⟩
  · rw [exec_tickCount_of_run hp] at h
    cases h
    exact ⟨nsOf_currentTick hcfg hlt, tickOf_nsec_le _⟩

/-! ## `TICK_DELTA` (R83) -/

theorem exec_tickDelta_of_some {s : State} {t : Tick} (hp : s.phase = .run)
    (h : tickDelta (lhsTick s) (rhsTick s) s.cfg.tickPeriodNs = some t) :
    exec .tickDelta s = .next (finish (writeTick s t)) := by
  rw [exec_tickDelta, whenRun_of_run hp, h]

theorem exec_tickDelta_of_none {s : State} (hp : s.phase = .run)
    (h : tickDelta (lhsTick s) (rhsTick s) s.cfg.tickPeriodNs = none) :
    exec .tickDelta s = .next (finish (drawResults s)) := by
  rw [exec_tickDelta, whenRun_of_run hp, h]

/-- `TICK_DELTA` completes with a valid Tick of `n` nanoseconds, and changes nothing but the results and `ST`. -/
def deltaReturns (s : State) (n : Nat) : Prop :=
  ∃ sec nsec : Word, exec .tickDelta s = .next { s with r0 := sec, r1 := nsec, st := 0#32 } ∧
    pairNs sec nsec = n ∧ nsec.toNat ≤ 999999999

theorem deltaReturns_of_some {s : State} {n : Nat} (hp : s.phase = .run) (hn : n < 2 ^ 32 * nsPerSec)
    (h : tickDelta (lhsTick s) (rhsTick s) s.cfg.tickPeriodNs = some (tickOf n)) : deltaReturns s n :=
  ⟨_, _, exec_tickDelta_of_some hp h, nsOf_tickOf hn, tickOf_nsec_le n⟩

theorem nsOf_lhsTick (s : State) : nsOf (lhsTick s) = pairNs s.a0 s.a1 := rfl

theorem nsOf_rhsTick (s : State) : nsOf (rhsTick s) = pairNs s.a2 s.a3 := rfl

/-- `lhs` is not earlier: the difference is no larger than `lhs`. -/
theorem deltaReturns_of_le {s : State} (hp : s.phase = .run) (hl : s.a1.toNat ≤ 999999999)
    (hr : s.a3.toNat ≤ 999999999) (h : pairNs s.a2 s.a3 ≤ pairNs s.a0 s.a1) :
    deltaReturns s (pairNs s.a0 s.a1 - pairNs s.a2 s.a3) := by
  have hlv : tickValid (lhsTick s) = true := decide_eq_true hl
  have hrv : tickValid (rhsTick s) = true := decide_eq_true hr
  rw [← nsOf_lhsTick, ← nsOf_rhsTick] at h ⊢
  exact deltaReturns_of_some hp ((Nat.sub_le _ _).trans_lt (nsOf_lt hlv)) (tickDelta_of_le hlv hrv h)

/-- `lhs` is earlier by less than a period: the corrected difference is less than a period. -/
theorem deltaReturns_of_wrap {s : State} (hp : s.phase = .run) (hcfg : s.cfg.wf) (hl : s.a1.toNat ≤ 999999999)
    (hr : s.a3.toNat ≤ 999999999) (h : pairNs s.a0 s.a1 < pairNs s.a2 s.a3)
    (hw : pairNs s.a2 s.a3 < pairNs s.a0 s.a1 + s.cfg.tickPeriodNs) :
    deltaReturns s (pairNs s.a0 s.a1 + s.cfg.tickPeriodNs - pairNs s.a2 s.a3) := by
  have hlv : tickValid (lhsTick s) = true := decide_eq_true hl
  have hrv : tickValid (rhsTick s) = true := decide_eq_true hr
  obtain ⟨-, hperiod, -⟩ := hcfg
  have hlt : pairNs s.a0 s.a1 + s.cfg.tickPeriodNs - pairNs s.a2 s.a3 < s.cfg.tickPeriodNs := by omega
  rw [← nsOf_lhsTick, ← nsOf_rhsTick] at h hw hlt ⊢
  exact deltaReturns_of_some hp (hlt.trans_le hperiod) (tickDelta_of_wrap hlv hrv h hw)

/-- With the full period every pair of valid Ticks has a delta, and it is their difference modulo the period. -/
theorem tickDelta_full_period {l r : Tick} (hl : tickValid l = true) (hr : tickValid r = true) :
    ∃ n, tickDelta l r (2 ^ 32 * nsPerSec) = some (tickOf n) ∧
      (n + nsOf r = nsOf l ∨ n + nsOf r = nsOf l + 2 ^ 32 * nsPerSec) := by
  rcases le_or_gt (nsOf r) (nsOf l) with h | h
  · exact ⟨_, tickDelta_of_le hl hr h, .inl (Nat.sub_add_cancel h)⟩
  · have hw : nsOf r < nsOf l + 2 ^ 32 * nsPerSec := (nsOf_lt hr).trans_le (Nat.le_add_left _ _)
    exact ⟨_, tickDelta_of_wrap hl hr h hw, .inr (Nat.sub_add_cancel hw.le)⟩

/-- A difference of words with `c` carried in, from the sum in the natural numbers. -/
theorem ofNat_eq_sub_add {a b : Word} {m c : Nat} (h : m + b.toNat = a.toNat + c) :
    BitVec.ofNat 32 m = a - b + BitVec.ofNat 32 c := by
  have hmod := congrArg (BitVec.ofNat 32) h
  simp only [BitVec.ofNat_add, BitVec.ofNat_toNat, BitVec.setWidth_eq] at hmod
  rw [sub_add_eq_add_sub, ← hmod, add_sub_cancel_right]

/-- A difference of words with `c` borrowed from it, from the sum modulo 2^32. -/
theorem ofNat_eq_sub_sub {a b : Word} {m c : Nat} (h : (m + b.toNat + c) % 2 ^ 32 = a.toNat) :
    BitVec.ofNat 32 m = a - b - BitVec.ofNat 32 c := by
  have ha : BitVec.ofNat 32 (m + b.toNat + c) = a := BitVec.eq_of_toNat_eq h
  simp only [BitVec.ofNat_add, BitVec.ofNat_toNat, BitVec.setWidth_eq] at ha
  rw [sub_sub, eq_sub_iff_add_eq, ← ha, add_assoc]

/-- Long subtraction on the fields of valid Ticks: nanoseconds with a borrow, seconds modulo 2^32. -/
theorem tickOf_eq_fieldwise_sub {l r : Tick} {n : Nat} (hl : l.nsec.toNat ≤ 999999999)
    (hr : r.nsec.toNat ≤ 999999999) (hn : n + nsOf r = nsOf l ∨ n + nsOf r = nsOf l + 2 ^ 32 * nsPerSec) :
    tickOf n = ⟨l.sec - r.sec - (if l.nsec.toNat < r.nsec.toNat then 1#32 else 0#32),
      l.nsec - r.nsec + (if l.nsec.toNat < r.nsec.toNat then 1000000000#32 else 0#32)⟩ := by
  have hls := l.sec.isLt
  simp only [nsOf, nsPerSec] at hn
  simp only [tickOf, Tick.mk.injEq, nsPerSec]
  split <;> exact ⟨ofNat_eq_sub_sub (by omega), ofNat_eq_sub_add (by omega)⟩

/-! ## `TICK_COMPARE` (R84) -/

/-- -1 stands for the lexicographic unsigned order of seconds, then nanoseconds. -/
theorem tickCompare_eq_neg_one_iff (l r : Tick) :
    tickCompare l r = -1 ↔ l.sec < r.sec ∨ (l.sec = r.sec ∧ l.nsec < r.nsec) := by
  simp only [tickCompare, BitVec.lt_def, ← BitVec.toNat_inj]
  split_ifs <;> simp <;> omega

theorem tickCompare_eq_zero_iff (l r : Tick) : tickCompare l r = 0 ↔ l.sec = r.sec ∧ l.nsec = r.nsec := by
  simp only [tickCompare, ← BitVec.toNat_inj]
  split_ifs <;> simp <;> omega

theorem tickCompare_swap (l r : Tick) : tickCompare r l = -tickCompare l r := by
  simp only [tickCompare]
  split_ifs <;> omega

theorem tickCompare_eq_one_iff (l r : Tick) :
    tickCompare l r = 1 ↔ r.sec < l.sec ∨ (l.sec = r.sec ∧ r.nsec < l.nsec) := by
  rw [eq_comm (a := l.sec), ← tickCompare_eq_neg_one_iff, tickCompare_swap l r, neg_inj]

theorem exec_tickCompare_of_run {s : State} (hp : s.phase = .run) : exec .tickCompare s =
    .next { s with r0 := BitVec.ofInt 32 (tickCompare (lhsTick s) (rhsTick s)), st := 0#32 } := by
  rw [exec_tickCompare, whenRun_of_run hp]
  rfl

end Sys2Proof.Machine
end

section
/-! PROOFS. TickClock (`40_tickclock.md`): the counter, its two samples, and the commands on ticks. -/

namespace Sys2Proof.Machine

/-- Settles O24: the turn of `TICK_ADV`, and the counter on the quantum's grid. -/
theorem tickAdvStepsAndWraps : Obligations.TickAdvStepsAndWraps := by
  unfold Obligations.TickAdvStepsAndWraps
  intro s rest hsch
  rw [step_of_event hsch, takeEvent_tickAdv]
  refine ⟨fun hp => ?_, fun hp => ?_, ?_⟩
  · simp only [if_pos hp]
  · simp only [if_neg hp]
  · rintro - ⟨-, -, hres, -, hhr, -⟩ ⟨hlt, hdvd⟩
    exact add_quantum_mod_period hdvd (hhr.trans hres) hlt

/-- Settles O25: the floored counter is in the range where `ns_of` undoes `tick_of`. -/
theorem tickCountReturnsTheFlooredSample : Obligations.TickCountReturnsTheFlooredSample := by
  unfold Obligations.TickCountReturnsTheFlooredSample
  refine ⟨decodeOfEncodeIsTheCommand .tickCount rfl, fun s hp hcfg ⟨hlt, _⟩ => ?_⟩
  exact ⟨_, _, exec_tickCount_of_run hp, nsOf_currentTick hcfg hlt, tickOf_nsec_le _⟩

/-- Settles O26: the two samples are the counter and its floor, the same number on a grid of `TICK_RES_NS`. -/
theorem tickHrcountReturnsTheExactSample : Obligations.TickHrcountReturnsTheExactSample := by
  unfold Obligations.TickHrcountReturnsTheExactSample
  refine ⟨decodeOfEncodeIsTheCommand .tickHrcount rfl, fun s hp hcfg ⟨hlt, hdvd⟩ => ?_⟩
  have hcoarse := nsOf_currentTick hcfg hlt
  have hfine := nsOf_tickOf_of_le_timeNs hcfg hlt le_rfl
  obtain ⟨-, -, -, hres, -⟩ := hcfg
  refine ⟨_, _, exec_tickCount_of_run hp, exec_tickHrcount_of_run hp, rfl, hfine, tickOf_nsec_le _, ?_, ?_, ?_⟩
  · exact (hcoarse.trans_le (floorTo_le _ _)).trans_eq hfine.symm
  · change nsOf (tickOf s.timeNs) < nsOf (currentTick s) + s.cfg.tickResNs
    rw [hcoarse, hfine]
    exact lt_floorTo_add hres _
  · intro hsame
    rw [currentTick, floorTo_of_dvd (hsame ▸ hdvd)]

/-- Settles O27: the two cases of R83, and the free values in every other case. -/
theorem tickDeltaCorrectsOneWrap : Obligations.TickDeltaCorrectsOneWrap := by
  unfold Obligations.TickDeltaCorrectsOneWrap
  refine ⟨decodeOfEncodeIsTheCommand .tickDelta rfl, fun s hp hcfg => ⟨?_, ?_, fun hout => ?_⟩⟩
  · exact deltaReturns_of_le hp
  · exact deltaReturns_of_wrap hp hcfg
  · have hnone : tickDelta (lhsTick s) (rhsTick s) s.cfg.tickPeriodNs = none := by
      refine (tickDelta_eq_none_iff hcfg.1).mpr (hout.imp ?_ (Or.imp_left ?_)) <;>
        exact fun h => decide_eq_false (not_le_of_gt h)
    exact ⟨_, exec_tickDelta_of_none hp hnone, rfl⟩

/-- Settles O28: the difference modulo 2^32 s, read field by field. -/
theorem tickDeltaIsFieldwiseSubtraction : Obligations.TickDeltaIsFieldwiseSubtraction := by
  unfold Obligations.TickDeltaIsFieldwiseSubtraction
  intro s hp hperiod hl hr
  obtain ⟨n, hdelta, hn⟩ :=
    tickDelta_full_period (l := lhsTick s) (r := rhsTick s) (decide_eq_true hl) (decide_eq_true hr)
  rw [← hperiod, tickOf_eq_fieldwise_sub hl hr hn] at hdelta
  exact exec_tickDelta_of_some hp hdelta

/-- Settles O29: the order of `tick_compare` on the operands, and the same with the operands swapped. -/
theorem tickCompareIsATotalOrder : Obligations.TickCompareIsATotalOrder := by
  unfold Obligations.TickCompareIsATotalOrder
  refine ⟨decodeOfEncodeIsTheCommand .tickCompare rfl, fun s hp => ?_⟩
  refine ⟨_, exec_tickCompare_of_run hp, tickCompare_eq_neg_one_iff _ _, tickCompare_eq_zero_iff _ _,
    tickCompare_eq_one_iff _ _, ?_⟩
  rw [← tickCompare_swap]
  exact exec_tickCompare_of_run (s := { s with a0 := s.a2, a1 := s.a3, a2 := s.a0, a3 := s.a1 }) hp

/-! ## Elapsed time (R87) -/

/-- `TICK_DELTA` completes with `ST = OK` and `d` nanoseconds, to within less than `q`. -/
def deltaWithin (w : State) (d q : Nat) : Prop :=
  ∃ x, exec .tickDelta w = .next x ∧ x.st = 0#32 ∧
    pairNs x.r0 x.r1 < d + q ∧ d < pairNs x.r0 x.r1 + q

theorem deltaReturns.within {w : State} {n d q : Nat} (h : deltaReturns w n) (hlt : n < d + q) (hgt : d < n + q) :
    deltaWithin w d q := by
  obtain ⟨sec, nsec, hexec, rfl, -⟩ := h
  exact ⟨_, hexec, rfl, hlt, hgt⟩

/-- Two samples floored to `q`, the second `d` nanoseconds after the first on a counter that wraps at most once and has
not reached the first sample again: the delta is `d` to within `q`. -/
theorem deltaWithin_of_samples {w : State} {m d q : Nat} (hp : w.phase = .run) (hcfg : w.cfg.wf) (hq : 0 < q)
    (hm : m < w.cfg.tickPeriodNs) (hl : w.a1.toNat ≤ 999999999) (hr : w.a3.toNat ≤ 999999999)
    (hlater : pairNs w.a0 w.a1 = floorTo ((m + d) % w.cfg.tickPeriodNs) q)
    (hfirst : pairNs w.a2 w.a3 = floorTo m q)
    (hd : m + d < w.cfg.tickPeriodNs ∨
      (w.cfg.tickPeriodNs ≤ m + d ∧ m + d < w.cfg.tickPeriodNs + pairNs w.a2 w.a3)) :
    deltaWithin w d q := by
  have hfirst_le := floorTo_le m q
  have hfirst_gt := lt_floorTo_add hq m
  have hlater_le := floorTo_le ((m + d) % w.cfg.tickPeriodNs) q
  have hlater_gt := lt_floorTo_add hq ((m + d) % w.cfg.tickPeriodNs)
  rw [← hfirst] at hfirst_le hfirst_gt
  rw [← hlater] at hlater_le hlater_gt
  rcases hd with hd | ⟨hge, hd⟩
  · have hmono : pairNs w.a2 w.a3 ≤ pairNs w.a0 w.a1 := by
      rw [hfirst, hlater, Nat.mod_eq_of_lt hd]
      exact floorTo_mono (Nat.le_add_right m d) q
    rw [Nat.mod_eq_of_lt hd] at hlater_le hlater_gt
    exact (deltaReturns_of_le hp hl hr hmono).within (by omega) (by omega)
  · have hwrap : (m + d) % w.cfg.tickPeriodNs = m + d - w.cfg.tickPeriodNs := by
      rw [Nat.mod_eq_sub_mod hge, Nat.mod_eq_of_lt (by omega)]
    rw [hwrap] at hlater_le hlater_gt
    exact (deltaReturns_of_wrap hp hcfg hl hr (by omega) (by omega)).within (by omega) (by omega)

theorem sampleRes_pos {c : Config} (hcfg : c.wf) (i : Instr) : 0 < sampleRes i c := by
  obtain ⟨-, -, -, hres, -⟩ := hcfg
  unfold sampleRes
  split
  · exact hres
  · exact Nat.one_pos

/-- Settles O30: both samples are floors of the counter, and a delta to within 1 ns is exact. -/
theorem successiveSamplesGiveTheElapsedTime : Obligations.SuccessiveSamplesGiveTheElapsedTime := by
  unfold Obligations.SuccessiveSamplesGiveTheElapsedTime
  rintro s t u v w k i ⟨hcfg, -, ⟨hlt, -⟩, -⟩ hp rfl hi hu hv hd hwp hwcfg h0 h1 h2 h3
  rw [afterTicks_of_run hp hlt k] at hv
  obtain ⟨hfirst, hr⟩ := exec_sample hi hp hcfg hlt hu
  obtain ⟨hlater, hl⟩ :=
    exec_sample (s := { s with timeNs := (s.timeNs + k * s.cfg.hrResNs) % s.cfg.tickPeriodNs })
      hi hp hcfg (Nat.mod_lt _ hcfg.1) hv
  rw [← h0, ← h1] at hlater
  rw [← h2, ← h3] at hfirst hd
  rw [← h1] at hl
  rw [← h3] at hr
  rw [← hwcfg] at hcfg hlt hlater hfirst hd ⊢
  obtain ⟨x, hx, hst, hub, hlb⟩ :=
    deltaWithin_of_samples hwp hcfg (sampleRes_pos hcfg i) hlt hl hr hlater hfirst hd
  refine ⟨x, hx, hst, ?_, ?_⟩
  · rintro rfl
    exact le_antisymm (Nat.le_of_lt_succ hub) (Nat.le_of_lt_succ hlb)
  · rintro rfl
    exact ⟨hub, hlb⟩

end Sys2Proof.Machine
end

section
/-! PROOFS. EventCapture (`41_eventcapture.md`): one edge, a run of edges, and `GET_EVENT`. -/

namespace Sys2Proof.Machine

/-! ## One edge (R100) -/

theorem step_edge_of_run {s : State} {lvl : Bool} {rest : List Turn} (hp : s.phase = .run)
    (hsch : s.schedule = .event (.edge lvl) :: rest) :
    step s = .next { s with schedule := rest, btn := buttonOf lvl, evt := s.evt ||| edgeBit lvl } := by
  rw [step_of_event hsch, takeEvent_edge]
  simp only [if_pos hp]

/-- Settles O31: the turn of `EDGE`, in `RUN` and outside it. -/
theorem edgeOverwritesButtonAndAccumulates : Obligations.EdgeOverwritesButtonAndAccumulates := by
  unfold Obligations.EdgeOverwritesButtonAndAccumulates
  intro s lvl rest hsch
  refine ⟨fun hp => step_edge_of_run hp hsch, fun hp => ?_⟩
  rw [step_of_event hsch, takeEvent_edge]
  simp only [if_neg hp]

/-! ## `GET_EVENT` (R102) -/

theorem exec_getEvent_of_run {s : State} (hp : s.phase = .run) :
    exec .getEvent s = .next { s with r0 := s.evt.setWidth 32, evt := 0#2, st := 0#32 } := by
  rw [exec_getEvent, whenRun_of_run hp, finish_eq]

theorem decode_getEvent : decode 0x20000000#32 = .ok .getEvent := decodeOfEncodeIsTheCommand .getEvent rfl

/-- Settles O32: the second command is the first on an empty mask. -/
theorem getEventReadsAndClears : Obligations.GetEventReadsAndClears := by
  unfold Obligations.GetEventReadsAndClears
  refine ⟨decode_getEvent, fun s hp => ⟨exec_getEvent_of_run hp, ?_⟩⟩
  exact exec_getEvent_of_run (s := { s with r0 := s.evt.setWidth 32, evt := 0#2, st := 0#32 }) hp

/-- The host's turn, when its next step writes the word of `GET_EVENT` to `CMD`. -/
theorem step_getEvent_of_run {s : State} {todo : List HostStep} {rest : List Turn} (hp : s.phase = .run)
    (hsch : s.schedule = .host :: rest) (htodo : s.hostTodo = .wr 0 0x20000000#32 :: todo) :
    step s = .next { s with
      schedule := rest, hostTodo := todo, r0 := s.evt.setWidth 32, evt := 0#2, st := 0#32 } := by
  have hnext : hostIsNext s (.wr 0 0x20000000#32) todo rest := ⟨hsch, htodo, by simp [hp]⟩
  rw [stepRunsTheDecodedCommand s _ _ todo rest hnext decode_getEvent]
  exact exec_getEvent_of_run (s := { s with schedule := rest, hostTodo := todo }) hp

/-! ## A run of edges (R104) -/

/-- One bit for each kind of edge among `lvls` (R104 (a)). -/
def edgesSeen (lvls : List Bool) : BitVec 2 :=
  (if true ∈ lvls then 1#2 else 0#2) ||| (if false ∈ lvls then 2#2 else 0#2)

theorem edgesSeen_nil : edgesSeen [] = 0#2 := rfl

/-- Each edge ORs in its own bit, one already set included. -/
theorem edgesSeen_cons (lvl : Bool) (lvls : List Bool) : edgesSeen (lvl :: lvls) = edgeBit lvl ||| edgesSeen lvls := by
  cases lvl with
  | true => by_cases h : true ∈ lvls <;> simp [edgesSeen, edgeBit, ← BitVec.or_assoc, h]
  | false => by_cases h : false ∈ lvls <;> simp [edgesSeen, edgeBit, BitVec.or_comm _ 2#2, ← BitVec.or_assoc, h]

/-- The mask as `GET_EVENT` returns it (R102). -/
theorem setWidth_edgesSeen (lvls : List Bool) : (edgesSeen lvls).setWidth 32 =
    (if true ∈ lvls then 1#32 else 0#32) ||| (if false ∈ lvls then 2#32 else 0#32) := by
  rw [edgesSeen, BitVec.setWidth_or]
  congr 1 <;> split <;> rfl

theorem runFor_succ_of_run_next {k : Nat} {s t u : State} (hrun : runFor k s = .next t) (hstep : step t = .next u) :
    runFor (k + 1) s = .next u :=
  (runFor_add hrun).trans (runFor_succ_of_next hstep)

/-- A run of edges in `RUN` ORs its kinds into `EVT`, leaves `BTN` at the last edge and changes nothing else. -/
theorem runFor_edges {s : State} {lvls : List Bool} {rest : List Turn} (hp : s.phase = .run)
    (hsch : s.schedule = lvls.map (fun l => .event (.edge l)) ++ rest) :
    runFor lvls.length s = .next { s with
      schedule := rest
      btn := (lvls.getLast?.map buttonOf).getD s.btn
      evt := s.evt ||| edgesSeen lvls } := by
  induction lvls generalizing s with
  | nil =>
    obtain rfl : s.schedule = rest := hsch
    rw [edgesSeen_nil, BitVec.or_zero]
    rfl
  | cons lvl lvls ih =>
    rw [List.length_cons, runFor_succ_of_next (step_edge_of_run hp hsch), ih]
    · simp only [edgesSeen_cons, BitVec.or_assoc, List.getLast?_cons, Option.map_some, Option.getD_some,
        Option.getD_map]
    · exact hp
    · rfl

/-- Settles O33: the run of edges, then the host's `GET_EVENT`. -/
theorem noEdgeIsLostBeforeTheRead : Obligations.NoEdgeIsLostBeforeTheRead := by
  unfold Obligations.NoEdgeIsLostBeforeTheRead
  intro s lvls todo rest hp hsch htodo
  have hrun := runFor_succ_of_run_next (runFor_edges hp hsch) (step_getEvent_of_run hp rfl htodo)
  rw [BitVec.setWidth_or, setWidth_edgesSeen, ← BitVec.or_assoc] at hrun
  exact hrun

end Sys2Proof.Machine
end

section
/-! PROOFS. BlinkSequencer (`42_blinksequencer.md`): the comparator, its three commands, and the input events. -/

namespace Sys2Proof

/-! ## The word of `SET_MODE` -/

/-- An opcode above an operand, as R62 writes a word that carries a field: the sum of the two. -/
theorem encode_eq_add (i : Instr) : encode i = (opcode i).setWidth 32 <<< 24 + (operandField i).setWidth 32 := by
  refine (BitVec.add_eq_or_of_and_eq_zero _ _ ?_).symm
  ext k hk
  by_cases h : k < 24
  · simp [h]
  · simp [BitVec.getLsbD_of_ge (operandField i) k (by omega)]

/-- The word of `SET_MODE` with a mode in 0..4 (R61, R62). -/
theorem decode_setMode {m : BitVec 3} (h : m.toNat ≤ 4) :
    decode (0x30000000#32 + m.setWidth 32) = .ok (.setMode m) := by
  have hop : (0x30#8).setWidth 32 <<< 24 = 0x30000000#32 := by decide
  have hword : encode (.setMode m) = 0x30000000#32 + m.setWidth 32 := by
    rw [encode_eq_add, opcode, operandField, hop, BitVec.setWidth_setWidth (by decide)]
  rw [← hword]
  exact decodeOfEncodeIsTheCommand (.setMode m) (decide_eq_true h)

end Sys2Proof

namespace Sys2Proof.Machine

/-! ## The numbers of the modes (R18) -/

theorem blinkModeOf_eq_some_iff (m : BitVec 3) (mode : BlinkMode) : blinkModeOf m = some mode ↔
    (m, mode) ∈ [(0#3, BlinkMode.off), (1#3, .slow), (2#3, .medium), (3#3, .fast), (4#3, .on)] := by
  revert m
  cases mode <;> decide

theorem eq_modeNumber_iff (m : Word) (mode : BlinkMode) : m = modeNumber mode ↔
    (m, mode) ∈ [(0#32, BlinkMode.off), (1#32, .slow), (2#32, .medium), (3#32, .fast), (4#32, .on)] := by
  cases mode <;> simp [modeNumber]

/-! ## The comparator (R113) -/

/-- The thresholds of R20 are the floors of its products, and above a floor is above the product. -/
theorem blinkOut_eq_levelByRule (m : BlinkMode) (c : Word) : blinkOut m c = levelByRule m c := by
  cases m with
  | off | on => rfl
  | slow | medium | fast => exact decide_eq_decide.mpr (by omega)

/-! ## The commands (R110 to R112) -/

/-- `LED` recomputed, then `OK`: the end of `SET_MODE` and of `BLINK_UPDATE`. -/
theorem finish_recomputeLed (s : State) :
    finish (recomputeLed s) = { s with led := levelByRule s.mode s.bcntIn, st := 0#32 } := by
  rw [finish_eq, recomputeLed, blinkOut_eq_levelByRule]

/-- Settles O34: a number in the table names its mode, and one above 4 names none. -/
theorem setModeAssignsAndRecomputes : Obligations.SetModeAssignsAndRecomputes := by
  unfold Obligations.SetModeAssignsAndRecomputes
  refine ⟨fun m => decode_setMode, fun s m mode hp hmem => ?_, fun s m hm => ?_⟩
  · rw [exec_setMode ((blinkModeOf_eq_some_iff m mode).mpr hmem), whenRun_of_run hp, finish_recomputeLed]
  · rw [exec_setMode_illegal (blinkModeOf_of_not_legal hm), raise_eq, statusCode_illegal]

/-- Settles O35: the table's number of a mode is the one `GET_MODE` returns. -/
theorem getModeReturnsTheMode : Obligations.GetModeReturnsTheMode := by
  unfold Obligations.GetModeReturnsTheMode
  refine ⟨decodeOfEncodeIsTheCommand .getMode rfl, ?_⟩
  rintro s m _ hp rfl hmem
  rw [exec_getMode, whenRun_of_run hp, finish_eq, ← (eq_modeNumber_iff m s.mode).mpr hmem]
  rfl

/-- Settles O36: the command ends with `LED` recomputed, and the pin is `LED` (R29). -/
theorem blinkUpdateComparesStrictly : Obligations.BlinkUpdateComparesStrictly := by
  unfold Obligations.BlinkUpdateComparesStrictly
  refine ⟨decodeOfEncodeIsTheCommand .blinkUpdate rfl, fun s hp => ⟨?_, rfl⟩⟩
  rw [exec_blinkUpdate, whenRun_of_run hp, finish_recomputeLed]

/-! ## The input events (R115, R152) -/

/-- Settles O37, by what the turn of each of the two events does in any phase. -/
theorem inputEventsSetOnlyTheirInput : Obligations.InputEventsSetOnlyTheirInput := by
  unfold Obligations.InputEventsSetOnlyTheirInput
  intro s v b rest
  refine ⟨fun hsch => ?_, fun hsch => ?_⟩
  · rw [step_of_event hsch, takeEvent_bcntSet]
  · rw [step_of_event hsch, takeEvent_hwrdySet]

end Sys2Proof.Machine
end

section
/-! PROOFS. AsyncSerialChannel (`43_asyncserial.md`), transmit side: the three commands, one `TX_STEP`, and a whole
transmission. -/

namespace Sys2Proof.Machine

/-! ## The commands in `RUN` (R125 to R127) -/

theorem not_misaligned {a : Word} (h : a.toNat % 4 = 0) : ¬ wordAligned a = false :=
  fun hfalse => (wordAligned_eq_false_iff a).mp hfalse h

theorem exec_txEnqueue_misaligned {s : State} (hp : s.phase = .run) (ha : s.a0.toNat % 4 ≠ 0) (n : Half) :
    exec (.txEnqueue n) s = .next { s with st := 4#32 } := by
  rw [exec_txEnqueue, whenRun_of_run hp, if_pos ((wordAligned_eq_false_iff s.a0).mpr ha), raise_eq, statusCode_badarg]

theorem exec_txEnqueue_busy {s : State} (hp : s.phase = .run) (ha : s.a0.toNat % 4 = 0) (hb : s.txBusy = true)
    (n : Half) : exec (.txEnqueue n) s = .next { s with r0 := 0#32, st := 1#32 } := by
  rw [exec_txEnqueue, whenRun_of_run hp, if_neg (not_misaligned ha), if_pos hb]
  rfl

theorem exec_txEnqueue_idle {s : State} (hp : s.phase = .run) (ha : s.a0.toNat % 4 = 0) (hb : s.txBusy = false)
    (n : Half) : exec (.txEnqueue n) s = .next { s with
      txFaddr := s.a0, txNfrag := n, txFi := 0#16, txBi := 0#16, txBusy := true, r0 := 1#32, st := 0#32 } := by
  rw [exec_txEnqueue, whenRun_of_run hp, if_neg (not_misaligned ha),
    if_neg (Bool.eq_false_iff.mp hb)]
  rfl

theorem exec_txAbort_of_run {s : State} (hp : s.phase = .run) :
    exec .txAbort s = .next { s with txBusy := false, st := 0#32 } := by
  rw [exec_txAbort, whenRun_of_run hp, finish_eq]

theorem decode_txEnqueue (n : Half) : decode (0x40000000#32 + n.setWidth 32) = .ok (.txEnqueue n) := by
  rw [← encode_txEnqueue]
  exact decodeOfEncodeIsTheCommand (.txEnqueue n) rfl

/-- Settles O38, by the three answers of the command. -/
theorem txEnqueueLatchesOrRejects : Obligations.TxEnqueueLatchesOrRejects := by
  unfold Obligations.TxEnqueueLatchesOrRejects
  refine ⟨decode_txEnqueue, fun s n hp => ⟨fun ha => ?_, fun ha hb => ?_, fun ha hb => ?_⟩⟩
  · exact exec_txEnqueue_misaligned hp ha n
  · exact exec_txEnqueue_busy hp ha hb n
  · exact exec_txEnqueue_idle hp ha hb n

/-- Settles O39: what the abort leaves is idle, so `TX_STEP` is disabled and an enqueue is accepted. -/
theorem txAbortFreesTheChannel : Obligations.TxAbortFreesTheChannel := by
  unfold Obligations.TxAbortFreesTheChannel
  refine ⟨decodeOfEncodeIsTheCommand .txAbort rfl, fun s hp => ⟨exec_txAbort_of_run hp, ?_, fun n ha => ?_⟩⟩
  · exact takeEvent_of_not_table (e := .txStep) fun hen => absurd hen.2 Bool.false_ne_true
  · exact ⟨_, exec_txEnqueue_idle (s := { s with txBusy := false, st := 0#32 }) hp ha rfl n, rfl, rfl⟩

/-- Settles O40: a Boolean result is 1 or 0 (R64). -/
theorem txQueryReturnsTheFlag : Obligations.TxQueryReturnsTheFlag := by
  unfold Obligations.TxQueryReturnsTheFlag
  refine ⟨decodeOfEncodeIsTheCommand .txQuery rfl, fun s hp => ?_⟩
  rw [exec_txQuery, whenRun_of_run hp, finish_eq]
  rfl

/-! ## One step of a transmission (R128) -/

theorem txStep_of_last {s : State} (h : s.txFi = s.txNfrag) : txStep s = { s with txBusy := false } := if_pos h

theorem txStep_of_sent {s : State} (h : s.txFi ≠ s.txNfrag) (hlen : (fragLen s).toNat ≤ s.txBi.toNat) :
    txStep s = { s with txFi := s.txFi + 1#16, txBi := 0#16 } := (if_neg h).trans (if_pos hlen)

theorem txStep_of_unsent {s : State} (h : s.txFi ≠ s.txNfrag) (hlen : s.txBi.toNat < (fragLen s).toNat) :
    txStep s = { s with wire := s.wire ++ [readByte s.mem (txByteAddr s).toNat], txBi := s.txBi + 1#16 } :=
  (if_neg h).trans (if_neg (Nat.not_le.mpr hlen))

/-- Settles O41, by the three things a step can do. -/
theorem txStepSendsMovesOrCompletes : Obligations.TxStepSendsMovesOrCompletes := by
  unfold Obligations.TxStepSendsMovesOrCompletes
  intro s rest hsch hp hb
  obtain ⟨hen, -⟩ := eventActsExactlyWhenEnabled s .txStep rest hsch
  rw [hen ⟨hp, hb⟩, eventEffect]
  refine ⟨fun hfi => ?_, fun hfi hlen => ?_, fun hfi hlen => ?_⟩
  · rw [txStep_of_last (s := { s with schedule := rest }) hfi]
  · rw [txStep_of_sent (s := { s with schedule := rest }) hfi hlen]
  · rw [txStep_of_unsent (s := { s with schedule := rest }) hfi hlen]
    rfl

/-! ## What has been sent at a position in the list -/

/-- The bytes sent when byte `bi` of fragment `fi` comes next: every earlier fragment, and the start of this one. -/
def sentBytes (m : Memory) (f : Word) (fi bi : Half) : List Byte :=
  payload m f fi.toNat ++ (fragmentBytes m f fi.toNat).take bi.toNat

theorem payload_succ (m : Memory) (f : Word) (i : Nat) :
    payload m f (i + 1) = payload m f i ++ fragmentBytes m f i := by
  simp [payload, List.range_succ]

theorem length_payload_mono (m : Memory) (f : Word) {i j : Nat} (h : i ≤ j) :
    (payload m f i).length ≤ (payload m f j).length := by
  refine monotone_nat_of_le_succ (f := fun k => (payload m f k).length) (fun k => ?_) h
  rw [payload_succ, List.length_append]
  exact Nat.le_add_right _ _

/-- R128's address of an entry, with the index as a number. -/
theorem entryAddr_eq (f : Word) (fi : Half) : f + BitVec.ofNat 32 (8 * fi.toNat) = f + 8#32 * fi.setWidth 32 := by
  rw [BitVec.ofNat_mul, BitVec.ofNat_toNat]

theorem length_fragmentBytes (m : Memory) (f : Word) (fi : Half) :
    (fragmentBytes m f fi.toNat).length = (memReadHalf m (f + 8#32 * fi.setWidth 32 + 4#32)).toNat := by
  rw [fragmentBytes, entryAddr_eq, List.length_map, List.length_range]

theorem sentBytes_zero_right (m : Memory) (f : Word) (fi : Half) : sentBytes m f fi 0#16 = payload m f fi.toNat := by
  simp [sentBytes]

/-- Moving on from a fragment that is sent sends nothing. -/
theorem sentBytes_next_fragment {m : Memory} {f : Word} {fi bi n : Half} (hfi : fi.toNat < n.toNat)
    (hbi : (fragmentBytes m f fi.toNat).length ≤ bi.toNat) :
    sentBytes m f (fi + 1#16) 0#16 = sentBytes m f fi bi := by
  rw [sentBytes_zero_right, toNat_add_one_of_lt hfi, payload_succ, sentBytes, List.take_of_length_le hbi]

/-- Sending byte `bi` of a fragment appends that byte. -/
theorem sentBytes_next_byte {m : Memory} {f : Word} {fi bi : Half}
    (hbi : bi.toNat < (memReadHalf m (f + 8#32 * fi.setWidth 32 + 4#32)).toNat) :
    sentBytes m f fi (bi + 1#16) = sentBytes m f fi bi ++
      [readByte m (memRead m (f + 8#32 * fi.setWidth 32) .four + bi.setWidth 32).toNat] := by
  have hlt : bi.toNat < (fragmentBytes m f fi.toNat).length := by rwa [length_fragmentBytes]
  have hbyte : (fragmentBytes m f fi.toNat)[bi.toNat] =
      readByte m (memRead m (f + 8#32 * fi.setWidth 32) .four + bi.setWidth 32).toNat := by
    simp only [fragmentBytes, entryAddr_eq, List.getElem_map, List.getElem_range, BitVec.ofNat_toNat]
  rw [sentBytes, sentBytes, toNat_add_one_of_lt hbi, List.take_succ_eq_append_getElem hlt, hbyte, List.append_assoc]

/-! ## A transmission left alone (R128) -/

/-- `s`, with the transmission that begins there brought to byte `bi` of fragment `fi`. -/
def sendingAt (s : State) (fi bi : Half) (rest : List Turn) : State :=
  { s with schedule := rest, txFi := fi, txBi := bi, wire := s.wire ++ sentBytes s.mem s.txFaddr fi bi }

/-- `k` steps from the start of the list a transmission can stand at byte `bi` of fragment `fi`: each step has sent a
byte or moved on, and past the last fragment no byte is next. -/
structure Reached (s : State) (k : Nat) (fi bi : Half) : Prop where
  fi_le : fi.toNat ≤ s.txNfrag.toNat
  bi_zero : fi = s.txNfrag → bi = 0#16
  steps : (sentBytes s.mem s.txFaddr fi bi).length + fi.toNat = k

theorem Reached.fi_lt {s : State} {k : Nat} {fi bi : Half} (h : Reached s k fi bi) (hne : fi ≠ s.txNfrag) :
    fi.toNat < s.txNfrag.toNat := lt_of_le_of_ne h.fi_le fun heq => hne (BitVec.eq_of_toNat_eq heq)

/-- The step count tells whether the last fragment is sent. -/
theorem Reached.eq_last_iff {s : State} {k : Nat} {fi bi : Half} (h : Reached s k fi bi) : fi = s.txNfrag ↔
    k = (payload s.mem s.txFaddr s.txNfrag.toNat).length + s.txNfrag.toNat := by
  constructor
  · intro hfi
    rw [← h.steps, h.bi_zero hfi, sentBytes_zero_right, hfi]
  · intro hk
    by_contra hne
    have hlt := h.fi_lt hne
    have hsent : (sentBytes s.mem s.txFaddr fi bi).length ≤ (payload s.mem s.txFaddr (fi.toNat + 1)).length := by
      rw [sentBytes, payload_succ, List.length_append, List.length_append]
      exact Nat.add_le_add_left (List.length_take_le' ..) _
    have hmono := length_payload_mono s.mem s.txFaddr (i := fi.toNat + 1) hlt
    have := h.steps
    omega

/-- One step of the transmission, where fragments are left. -/
theorem step_sendingAt {s : State} {k : Nat} {fi bi : Half} {rest : List Turn} (hp : s.phase = .run)
    (hb : s.txBusy = true) (h : Reached s k fi bi) (hne : fi ≠ s.txNfrag) :
    ∃ fi' bi', step (sendingAt s fi bi (.event .txStep :: rest)) = .next (sendingAt s fi' bi' rest) ∧
      Reached s (k + 1) fi' bi' := by
  obtain ⟨-, hmove, hsend⟩ :=
    txStepSendsMovesOrCompletes (sendingAt s fi bi (.event .txStep :: rest)) rest rfl hp hb
  have hlt := h.fi_lt hne
  by_cases hbi : bi.toNat < (memReadHalf s.mem (s.txFaddr + 8#32 * fi.setWidth 32 + 4#32)).toNat
  · have hsent := sentBytes_next_byte (m := s.mem) hbi
    refine ⟨fi, bi + 1#16, (hsend hne hbi).trans ?_, h.fi_le, fun heq => absurd heq hne, ?_⟩
    · simp only [sendingAt, hsent, List.append_assoc]
    · rw [hsent, List.length_append, List.length_singleton, ← h.steps]
      omega
  · have hsent := sentBytes_next_fragment (m := s.mem) (f := s.txFaddr) hlt
      ((length_fragmentBytes ..).trans_le (Nat.le_of_not_lt hbi))
    refine ⟨fi + 1#16, 0#16, (hmove hne (Nat.le_of_not_lt hbi)).trans ?_, ?_, fun _ => rfl, ?_⟩
    · simp only [sendingAt, hsent]
    · rw [toNat_add_one_of_lt hlt]
      exact hlt
    · rw [hsent, toNat_add_one_of_lt hlt, ← h.steps, Nat.add_assoc]

/-- Up to the step that completes it, a transmission sends or moves on at every step. -/
theorem runFor_transmission {s : State} {k : Nat} {rest : List Turn} (hp : s.phase = .run) (hb : s.txBusy = true)
    (hfi : s.txFi = 0#16) (hbi : s.txBi = 0#16)
    (hk : k ≤ (payload s.mem s.txFaddr s.txNfrag.toNat).length + s.txNfrag.toNat)
    (hsch : s.schedule = List.replicate k (.event .txStep) ++ rest) :
    ∃ fi bi, runFor k s = .next (sendingAt s fi bi rest) ∧ Reached s k fi bi := by
  induction k generalizing rest with
  | zero =>
    have hnone : sentBytes s.mem s.txFaddr s.txFi s.txBi = [] := by
      rw [hfi, hbi, sentBytes_zero_right]
      rfl
    refine ⟨s.txFi, s.txBi, ?_, hfi ▸ Nat.zero_le _, fun _ => hbi, ?_⟩
    · obtain rfl : s.schedule = rest := hsch
      rw [runFor_zero, sendingAt, hnone, List.append_nil]
    · rw [hnone, hfi]
      rfl
  | succ k ih =>
    rw [List.replicate_succ', List.append_assoc] at hsch
    obtain ⟨fi, bi, hrun, hreached⟩ := ih (Nat.le_of_succ_le hk) hsch
    have hne : fi ≠ s.txNfrag := fun heq => (Nat.ne_of_lt hk) (hreached.eq_last_iff.mp heq)
    obtain ⟨fi', bi', hstep, hreached'⟩ := step_sendingAt (rest := rest) hp hb hreached hne
    exact ⟨fi', bi', runFor_succ_of_run_next hrun hstep, hreached'⟩

/-- Settles O42: the step after the last fragment completes, and every step before it leaves the channel busy. -/
theorem transmissionSendsExactlyItsFragments : Obligations.TransmissionSendsExactlyItsFragments := by
  unfold Obligations.TransmissionSendsExactlyItsFragments
  rintro s rest _ hp hb hfi hbi rfl hsch
  refine ⟨?_, fun k hk => ?_⟩
  · rw [List.replicate_succ', List.append_assoc] at hsch
    obtain ⟨fi, bi, hrun, hreached⟩ := runFor_transmission hp hb hfi hbi le_rfl hsch
    obtain rfl : fi = s.txNfrag := hreached.eq_last_iff.mpr rfl
    obtain rfl : bi = 0#16 := hreached.bi_zero rfl
    obtain ⟨hlast, -, -⟩ :=
      txStepSendsMovesOrCompletes (sendingAt s s.txNfrag 0#16 (.event .txStep :: rest)) rest rfl hp hb
    have hdone := runFor_succ_of_run_next hrun (hlast rfl)
    rw [sendingAt, sentBytes_zero_right, ← hbi] at hdone
    exact hdone
  · have hsplit := Nat.add_sub_cancel' (Nat.le_of_lt hk)
    rw [← hsplit, List.replicate_add, List.append_assoc] at hsch
    obtain ⟨fi, bi, hrun, -⟩ := runFor_transmission hp hb hfi hbi (Nat.le_of_lt_succ hk) hsch
    exact ⟨_, hrun, hb⟩

end Sys2Proof.Machine
end

section
/-! SUPPORT. Runs of bytes and completion words in memory (R42, R43): what is read back after a store. -/

namespace Sys2Proof.Machine

/-- A word written is read back (R42, R43). -/
theorem memRead_memWrite_four {m : Memory} (h : Memory.wf m) (a v : Word) :
    memRead (memWrite m a .four v) a .four = v := by
  refine BitVec.eq_of_toNat_eq ?_
  rw [toNat_memRead, memWrite, readLE_writeLE h a (by decide)]
  exact Nat.mod_eq_of_lt v.isLt

/-- What is read depends on the bytes read alone. -/
theorem memRead_congr {m m' : Memory} {a : Word} {n : AccessSize}
    (h : ∀ x ∈ byteAddrs a (sizeBytes n), readByte m x = readByte m' x) : memRead m a n = memRead m' a n := by
  rw [memRead, memRead, readLE_congr h]

/-- The bytes of a list stored from `a` upward, one `RX_BYTE` after the other (R134). -/
def storeBytes (m : Memory) (a : Word) (bytes : List Byte) : Memory :=
  match bytes with
  | [] => m
  | b :: rest => storeBytes (writeByte m a.toNat b) (a + 1#32) rest

theorem wf_storeBytes {m : Memory} (h : Memory.wf m) (a : Word) (bytes : List Byte) :
    Memory.wf (storeBytes m a bytes) := by
  induction bytes generalizing m a with
  | nil => exact h
  | cons b rest ih => exact ih (wf_writeByte h a.isLt b) _

theorem readByte_storeBytes_of_not_mem {m : Memory} (h : Memory.wf m) {a : Word} {bytes : List Byte} {x : Nat}
    (hx : x ∉ byteAddrs a bytes.length) : readByte (storeBytes m a bytes) x = readByte m x := by
  induction bytes generalizing m a with
  | nil => rfl
  | cons b rest ih =>
    obtain ⟨hne, hnot⟩ := not_or.mp (mt List.mem_cons.mpr hx)
    rw [storeBytes, ih (wf_writeByte h a.isLt b) hnot, readByte_writeByte h, if_neg hne]

/-- Byte `j` of the list stands at address `a + j`: no later byte overwrites it. -/
theorem readByte_storeBytes {m : Memory} (h : Memory.wf m) {a : Word} {bytes : List Byte} {j : Nat}
    (hlen : bytes.length ≤ 2 ^ 32) (hj : j < bytes.length) :
    readByte (storeBytes m a bytes) (a + BitVec.ofNat 32 j).toNat = bytes[j] := by
  induction bytes generalizing m a j with
  | nil => exact absurd hj (Nat.not_lt_zero j)
  | cons b rest ih =>
    have hw := wf_writeByte h a.isLt b
    rw [storeBytes]
    cases j with
    | zero =>
      rw [BitVec.add_zero, readByte_storeBytes_of_not_mem hw (toNat_not_mem_byteAddrs_add_one a hlen),
        readByte_writeByte h, if_pos rfl, List.getElem_cons_zero]
    | succ j =>
      have haddr : a + BitVec.ofNat 32 (j + 1) = a + 1#32 + BitVec.ofNat 32 j := by
        rw [BitVec.add_assoc, ← BitVec.ofNat_add, Nat.add_comm 1 j]
      rw [haddr, ih hw (Nat.le_of_succ_le hlen) (Nat.lt_of_succ_lt_succ hj), List.getElem_cons_succ]

theorem mem_byteAddrs_iff_add {a : Word} {n x : Nat} :
    x ∈ byteAddrs a n ↔ ∃ j < n, x = (a + BitVec.ofNat 32 j).toNat := by
  simp only [mem_byteAddrs, BitVec.toNat_add, BitVec.toNat_ofNat, Nat.add_mod_mod]

end Sys2Proof.Machine
end

section
/-! PROOFS. AsyncSerialChannel (`43_asyncserial.md`), receive side: the three commands, the three events of the engine,
a whole reception, and one operation per direction (R140). -/

namespace Sys2Proof.Machine

/-! ## The commands in `RUN` (R131 to R133) -/

theorem exec_rxEnqueue_misaligned {s : State} (hp : s.phase = .run) (ha : s.a0.toNat % 4 ≠ 0) :
    exec .rxEnqueue s = .next { s with st := 4#32 } := by
  rw [exec_rxEnqueue, whenRun_of_run hp, if_pos ((wordAligned_eq_false_iff s.a0).mpr ha), raise_eq, statusCode_badarg]

theorem exec_rxEnqueue_busy {s : State} (hp : s.phase = .run) (ha : s.a0.toNat % 4 = 0) (hb : s.rxBusy = true) :
    exec .rxEnqueue s = .next { s with r0 := 0#32, st := 1#32 } := by
  rw [exec_rxEnqueue, whenRun_of_run hp, if_neg (not_misaligned ha), if_pos hb]
  rfl

/-- The state an accepted `RX_ENQUEUE` leaves (R131). -/
def armed (s : State) : State :=
  { s with
    rxDaddr := s.a0
    rxBuf := memRead s.mem s.a0 .four
    rxMax := memReadHalf s.mem (s.a0 + 4#32)
    rxCnt := 0#16
    mem := memWrite s.mem (completionAddr s.a0) .four (completionWord .none)
    rxBusy := true
    r0 := 1#32
    st := 0#32 }

theorem exec_rxEnqueue_idle {s : State} (hp : s.phase = .run) (ha : s.a0.toNat % 4 = 0) (hb : s.rxBusy = false) :
    exec .rxEnqueue s = .next (armed s) := by
  rw [exec_rxEnqueue, whenRun_of_run hp, if_neg (not_misaligned ha),
    if_neg (Bool.eq_false_iff.mp hb)]
  rfl

theorem exec_rxAbort_of_run {s : State} (hp : s.phase = .run) :
    exec .rxAbort s = .next { s with rxBusy := false, st := 0#32 } := by
  rw [exec_rxAbort, whenRun_of_run hp, finish_eq]

theorem decode_rxEnqueue : decode 0x48000000#32 = .ok .rxEnqueue := decodeOfEncodeIsTheCommand .rxEnqueue rfl

/-- Settles O43, by the three answers of the command. -/
theorem rxEnqueueArmsOrRejects : Obligations.RxEnqueueArmsOrRejects := by
  unfold Obligations.RxEnqueueArmsOrRejects
  refine ⟨decode_rxEnqueue, fun s hp => ⟨fun ha => ?_, fun ha hb => ?_, fun ha hb => ?_⟩⟩
  · exact exec_rxEnqueue_misaligned hp ha
  · exact exec_rxEnqueue_busy hp ha hb
  · exact exec_rxEnqueue_idle hp ha hb

/-- No receive event is enabled on an idle channel (R31). -/
theorem not_enabled_of_rx_idle {e : Event} {s : State} (he : e.agent = .serRx) (hb : s.rxBusy = false) :
    ¬ enabledByTable e s := by
  have hidle : ¬ s.rxBusy = true := Bool.eq_false_iff.mp hb
  cases e with
  | rxByte b => exact fun hen => hidle hen.2.1
  | rxDone => exact fun hen => hidle hen.2.1
  | rxBreak => exact fun hen => hidle hen.2.2
  | tickAdv | edge | txStep | bcntSet | hwrdySet | initDone => cases he

/-- Settles O44: what the abort leaves is idle, so no receive event is enabled. -/
theorem rxAbortFreesTheChannel : Obligations.RxAbortFreesTheChannel := by
  unfold Obligations.RxAbortFreesTheChannel
  refine ⟨decodeOfEncodeIsTheCommand .rxAbort rfl, fun s hp => ⟨exec_rxAbort_of_run hp, fun e he => ?_⟩⟩
  exact takeEvent_of_not_table (not_enabled_of_rx_idle he rfl)

/-- Settles O45: a Boolean result is 1 or 0 (R64). -/
theorem rxQueryReturnsTheFlag : Obligations.RxQueryReturnsTheFlag := by
  unfold Obligations.RxQueryReturnsTheFlag
  refine ⟨decodeOfEncodeIsTheCommand .rxQuery rfl, fun s hp => ?_⟩
  rw [exec_rxQuery, whenRun_of_run hp, finish_eq]
  rfl

/-! ## The events of the engine (R134 to R136) -/

theorem step_rxByte_of_room {s : State} {b : Byte} {rest : List Turn} (hsch : s.schedule = .event (.rxByte b) :: rest)
    (hp : s.phase = .run) (hb : s.rxBusy = true) (hroom : s.rxCnt.toNat < s.rxMax.toNat) :
    step s = .next { s with
      schedule := rest, mem := writeByte s.mem (rxByteAddr s).toNat b, rxCnt := s.rxCnt + 1#16 } := by
  obtain ⟨hen, -⟩ := eventActsExactlyWhenEnabled s (.rxByte b) rest hsch
  exact hen ⟨hp, hb, hroom⟩

theorem toNat_rxByteAddr (s : State) : (rxByteAddr s).toNat = (s.rxBuf.toNat + s.rxCnt.toNat) % 2 ^ 32 := by
  rw [rxByteAddr, BitVec.toNat_add, BitVec.toNat_setWidth_of_le (by decide)]

/-- Settles O46: the one byte stored, or a disabled event. -/
theorem rxByteFillsTheBuffer : Obligations.RxByteFillsTheBuffer := by
  unfold Obligations.RxByteFillsTheBuffer
  intro s b rest hsch hp hwf
  obtain ⟨-, hdis⟩ := eventActsExactlyWhenEnabled s (.rxByte b) rest hsch
  rw [← toNat_rxByteAddr]
  refine ⟨fun hb hroom => ?_, fun hfull => ?_⟩
  · refine ⟨_, step_rxByte_of_room hsch hp hb hroom, rfl, toNat_add_one_of_lt hroom, ?_, fun x hx => ?_⟩
    · exact (readByte_writeByte hwf _ b _).trans (if_pos rfl)
    · exact (readByte_writeByte hwf _ b x).trans (if_neg hx)
  · rcases hfull with hidle | hfull
    · exact hdis (not_enabled_of_rx_idle rfl hidle)
    · exact hdis fun hen => absurd hen.2.2 (Nat.not_lt.mpr hfull)

/-- Settles O47: the end of a reception, or a disabled event. -/
theorem rxDoneWritesTheLength : Obligations.RxDoneWritesTheLength := by
  unfold Obligations.RxDoneWritesTheLength
  intro s rest hsch hp hb
  obtain ⟨hen, hdis⟩ := eventActsExactlyWhenEnabled s .rxDone rest hsch
  refine ⟨fun hcnt => hen ⟨hp, hb, hcnt⟩, fun hcnt => hdis ?_⟩
  rintro ⟨-, -, hpos⟩
  rw [hcnt] at hpos
  exact absurd hpos (by decide)

/-- Settles O48: the end of a reception, or a disabled event. -/
theorem rxBreakWritesBreak : Obligations.RxBreakWritesBreak := by
  unfold Obligations.RxBreakWritesBreak
  intro s rest hsch hp hb
  obtain ⟨hen, hdis⟩ := eventActsExactlyWhenEnabled s .rxBreak rest hsch
  exact ⟨fun hbreak => hen ⟨hbreak, hp, hb⟩, fun hnone => hdis fun h => Bool.eq_false_iff.mp hnone h.1⟩

/-! ## A reception left alone (R137) -/

/-- A run of bytes for which there is room fills the buffer from where it stands. -/
theorem runFor_rxBytes {s : State} {bytes : List Byte} {rest : List Turn} (hp : s.phase = .run) (hb : s.rxBusy = true)
    (hroom : s.rxCnt.toNat + bytes.length ≤ s.rxMax.toNat)
    (hsch : s.schedule = bytes.map (fun b => .event (.rxByte b)) ++ rest) :
    runFor bytes.length s = .next { s with
      schedule := rest
      mem := storeBytes s.mem (rxByteAddr s) bytes
      rxCnt := s.rxCnt + BitVec.ofNat 16 bytes.length } := by
  induction bytes generalizing s with
  | nil =>
    obtain rfl : s.schedule = rest := hsch
    rw [List.length_nil, BitVec.add_zero]
    rfl
  | cons b bytes ih =>
    have hlt : s.rxCnt.toNat < s.rxMax.toNat := by
      rw [List.length_cons] at hroom
      omega
    have hcnt := toNat_add_one_of_lt hlt
    have haddr : s.rxBuf + (s.rxCnt + 1#16).setWidth 32 = rxByteAddr s + 1#32 := by
      refine BitVec.eq_of_toNat_eq ?_
      rw [BitVec.toNat_add, BitVec.toNat_setWidth_of_le (by decide), hcnt, BitVec.toNat_add, toNat_rxByteAddr,
        Nat.mod_add_mod, ← Nat.add_assoc]
      rfl
    rw [List.length_cons, runFor_succ_of_next (step_rxByte_of_room hsch hp hb hlt), ih]
    · have hcount : s.rxCnt + 1#16 + BitVec.ofNat 16 bytes.length = s.rxCnt + BitVec.ofNat 16 (bytes.length + 1) := by
        rw [Nat.add_comm, BitVec.ofNat_add, BitVec.add_assoc]
      simp only [rxByteAddr, haddr, storeBytes, hcount]
    · exact hp
    · exact hb
    · rw [List.length_cons] at hroom
      show (s.rxCnt + 1#16).toNat + bytes.length ≤ s.rxMax.toNat
      omega
    · rfl

/-- Memory once `bytes` stand in the buffer of the descriptor at `d`, its completion word still `NONE`. -/
def filledMem (m : Memory) (d : Word) (bytes : List Byte) : Memory :=
  storeBytes (memWrite m (completionAddr d) .four (completionWord .none)) (memRead m d .four) bytes

/-- Memory once that reception is complete. -/
def completedMem (m : Memory) (d : Word) (bytes : List Byte) : Memory :=
  memWrite (filledMem m d bytes) (completionAddr d) .four (completionWord (.data (BitVec.ofNat 16 bytes.length)))

theorem wf_filledMem {m : Memory} (h : Memory.wf m) (d : Word) (bytes : List Byte) : Memory.wf (filledMem m d bytes) :=
  wf_storeBytes (wf_memWrite h _ _ _) _ _

section
variable {m : Memory} {d : Word} {bytes : List Byte} (hwf : Memory.wf m)
  (happart : ∀ j < bytes.length, (memRead m d .four + BitVec.ofNat 32 j).toNat ∉ byteAddrs (completionAddr d) 4)
include hwf happart

/-- The bytes received leave the completion word alone. -/
theorem memRead_completion_filledMem :
    memRead (filledMem m d bytes) (completionAddr d) .four = completionWord .none := by
  have hkept : ∀ x ∈ byteAddrs (completionAddr d) 4, readByte (filledMem m d bytes) x =
      readByte (memWrite m (completionAddr d) .four (completionWord .none)) x := by
    refine fun x hx => readByte_storeBytes_of_not_mem (wf_memWrite hwf _ _ _) fun hbuf => ?_
    obtain ⟨j, hj, rfl⟩ := mem_byteAddrs_iff_add.mp hbuf
    exact happart j hj hx
  rw [memRead_congr hkept, memRead_memWrite_four hwf]

/-- The completion word leaves the bytes received alone. -/
theorem readByte_buffer_completedMem (hlen : bytes.length ≤ 2 ^ 32) {j : Nat} (hj : j < bytes.length) :
    readByte (completedMem m d bytes) (memRead m d .four + BitVec.ofNat 32 j).toNat = bytes[j] := by
  rw [completedMem, readByte_memWrite_of_not_mem (wf_filledMem hwf d bytes) (happart j hj)]
  exact readByte_storeBytes (wf_memWrite hwf _ _ _) hlen hj

end

theorem memRead_completion_completedMem {m : Memory} (hwf : Memory.wf m) (d : Word) (bytes : List Byte) :
    memRead (completedMem m d bytes) (completionAddr d) .four =
      completionWord (.data (BitVec.ofNat 16 bytes.length)) :=
  memRead_memWrite_four (wf_filledMem hwf d bytes) _ _

/-- The completion word of an aligned descriptor is aligned (R46, R48). -/
theorem completionAddr_aligned {d : Word} (h : d.toNat % 4 = 0) :
    (completionAddr d).toNat % sizeBytes .four = 0 := by
  rw [completionAddr, sizeBytes, BitVec.toNat_add, BitVec.toNat_ofNat]
  omega

/-- The host arms a reception, and its bytes come. -/
theorem runFor_arm_fill {s : State} {bytes : List Byte} {todo : List HostStep} {rest : List Turn}
    (hp : s.phase = .run) (hb : s.rxBusy = false) (ha : s.a0.toNat % 4 = 0)
    (hroom : bytes.length ≤ (memReadHalf s.mem (s.a0 + 4#32)).toNat)
    (htodo : s.hostTodo = .wr 0 0x48000000#32 :: todo)
    (hsch : s.schedule = .host :: (bytes.map (fun b => .event (.rxByte b)) ++ rest)) :
    runFor (bytes.length + 1) s = .next { armed s with
      schedule := rest
      hostTodo := todo
      mem := filledMem s.mem s.a0 bytes
      rxCnt := BitVec.ofNat 16 bytes.length } := by
  have harm := (stepRunsTheDecodedCommand s _ _ _ _ ⟨hsch, htodo, by simp [hp]⟩ decode_rxEnqueue).trans
    (exec_rxEnqueue_idle hp ha hb)
  rw [runFor_succ_of_next harm, runFor_rxBytes (rest := rest)]
  · simp only [armed, rxByteAddr, filledMem, BitVec.setWidth_zero, BitVec.add_zero, BitVec.zero_add]
  · exact hp
  · rfl
  · exact (Nat.zero_add _).trans_le hroom
  · rfl

/-- The host's turn, when it loads the completion word of an aligned descriptor (R50, R137). -/
theorem step_poll {s : State} {d : Word} {todo : List HostStep} {rest : List Turn} (ha : d.toNat % 4 = 0)
    (h : hostIsNext s (.load (completionAddr d) .four) todo rest) : step s = .next { s with
      schedule := rest, hostTodo := todo, hostReads := s.hostReads ++ [memRead s.mem (completionAddr d) .four] } := by
  obtain ⟨hload, -⟩ := hostLoadAndStoreReachMemory s _ 0#32 .four todo rest (completionAddr_aligned ha)
  exact hload h

/-- The host polls, the engine completes the reception, and the host polls again. -/
theorem runFor_poll_done_poll {s : State} {todo : List HostStep} {rest : List Turn} (hp : s.phase = .run)
    (hb : s.rxBusy = true) (ha : s.rxDaddr.toNat % 4 = 0) (hcnt : 1 ≤ s.rxCnt.toNat)
    (htodo : s.hostTodo =
      .load (completionAddr s.rxDaddr) .four :: .load (completionAddr s.rxDaddr) .four :: todo)
    (hsch : s.schedule = .host :: .event .rxDone :: .host :: rest) :
    runFor 3 s = .next { rxDone s with
      schedule := rest
      hostTodo := todo
      hostReads := s.hostReads ++ [memRead s.mem (completionAddr s.rxDaddr) .four,
        memRead (rxDone s).mem (completionAddr s.rxDaddr) .four] } := by
  have hheld : s.phase ≠ .initWait := by simp [hp]
  have hpoll := runFor_succ_of_run_next (runFor_zero s) (step_poll ha ⟨hsch, htodo, hheld⟩)
  have hdone := runFor_succ_of_run_next hpoll ((eventActsExactlyWhenEnabled _ .rxDone _ rfl).1 ⟨hp, hb, hcnt⟩)
  have hagain := runFor_succ_of_run_next hdone (step_poll ha ⟨rfl, rfl, hheld⟩)
  rw [hagain]
  simp only [eventEffect, rxDone, completeRx, List.append_assoc, List.cons_append, List.nil_append]

/-- Settles O49: the host arms the reception, the bytes come, and its two polls are either side of the completion. -/
theorem receptionDeliversItsBytes : Obligations.ReceptionDeliversItsBytes := by
  unfold Obligations.ReceptionDeliversItsBytes
  rintro s bytes _ _ rest todo hp hwf hb rfl ha rfl hpos hroom happart htodo hsch
  have hlen : bytes.length < 2 ^ 16 := hroom.trans_lt (memReadHalf s.mem (s.a0 + 4#32)).isLt
  have hcnt : 1 ≤ (BitVec.ofNat 16 bytes.length).toNat := by
    rwa [BitVec.toNat_ofNat, Nat.mod_eq_of_lt hlen]
  have hrun := (runFor_add (runFor_arm_fill hp hb ha hroom htodo hsch)).trans
    (runFor_poll_done_poll hp rfl ha hcnt rfl rfl)
  refine ⟨_, _, hrun, ?_, completionOf_completionWord _, rfl, rfl, rfl, rfl, rfl, fun j hj => ?_⟩
  · show s.hostReads ++ [memRead (filledMem s.mem s.a0 bytes) (completionAddr s.a0) .four,
      memRead (completedMem s.mem s.a0 bytes) (completionAddr s.a0) .four] = _
    rw [memRead_completion_filledMem hwf happart, memRead_completion_completedMem hwf]
    rfl
  · exact readByte_buffer_completedMem hwf happart (hlen.le.trans (by decide)) hj

/-! ## One operation per direction (R140) -/

/-- After an enqueue of an aligned list the channel is busy, whether this enqueue was accepted or an earlier one. -/
theorem txBusy_of_txEnqueue {s t : State} {n : Half} (hp : s.phase = .run) (ha : s.a0.toNat % 4 = 0)
    (h : exec (.txEnqueue n) s = .next t) : t.phase = .run ∧ t.a0 = s.a0 ∧ t.txBusy = true := by
  cases hb : s.txBusy with
  | true =>
    rw [exec_txEnqueue_busy hp ha hb] at h
    cases h
    exact ⟨hp, rfl, hb⟩
  | false =>
    rw [exec_txEnqueue_idle hp ha hb] at h
    cases h
    exact ⟨hp, rfl, rfl⟩

/-- The same for the receive side. -/
theorem rxBusy_of_rxEnqueue {s t : State} (hp : s.phase = .run) (ha : s.a0.toNat % 4 = 0)
    (h : exec .rxEnqueue s = .next t) : t.phase = .run ∧ t.a0 = s.a0 ∧ t.rxBusy = true := by
  cases hb : s.rxBusy with
  | true =>
    rw [exec_rxEnqueue_busy hp ha hb] at h
    cases h
    exact ⟨hp, rfl, hb⟩
  | false =>
    rw [exec_rxEnqueue_idle hp ha hb] at h
    cases h
    exact ⟨hp, rfl, rfl⟩

/-- Settles O50: an enqueue leaves its side busy, an abort leaves it idle, and idle it was if it was. -/
theorem oneOperationPerDirection : Obligations.OneOperationPerDirection := by
  unfold Obligations.OneOperationPerDirection
  intro s hp ha
  refine ⟨fun n k t u henq habort => ?_, fun t u henq habort => ?_, fun hb => ?_, fun hb => ?_⟩
  · obtain ⟨hpt, hat, hbt⟩ := txBusy_of_txEnqueue hp ha henq
    rw [← hat] at ha
    cases (exec_txAbort_of_run hpt).symm.trans habort
    exact ⟨exec_txEnqueue_busy hpt ha hbt k, _,
      exec_txEnqueue_idle (s := { t with txBusy := false, st := 0#32 }) hpt ha rfl k, rfl, rfl, rfl, rfl⟩
  · obtain ⟨hpt, hat, hbt⟩ := rxBusy_of_rxEnqueue hp ha henq
    rw [← hat] at ha
    cases (exec_rxAbort_of_run hpt).symm.trans habort
    exact ⟨exec_rxEnqueue_busy hpt ha hbt, _,
      exec_rxEnqueue_idle (s := { t with rxBusy := false, st := 0#32 }) hpt ha rfl, rfl, rfl, rfl, rfl⟩
  · rw [exec_txAbort_of_run hp, ← hb]
  · rw [exec_rxAbort_of_run hp, ← hb]

end Sys2Proof.Machine
end

section
/-! PROOFS. Initialization and loop service (`44_init_service.md`): `INIT`, `INIT_DONE`, the wait that never ends, and
`SERVICE`. -/

namespace Sys2Proof.Machine

/-! ## `INIT` and `INIT_DONE` (R150, R151) -/

theorem exec_init_of_reset {s : State} (hp : s.phase = .reset) :
    exec .init s = .next { s with phase := .initWait } := by
  rw [exec_init, if_pos hp]

/-- Settles O19: `INIT` in `RESET` ends in the phase that holds the host; elsewhere it is out of sequence. -/
theorem initStartsTheWait : Obligations.InitStartsTheWait := by
  unfold Obligations.InitStartsTheWait
  obtain ⟨-, hseq⟩ := commandOutOfSequenceRaisesSeq
  refine ⟨decodeOfEncodeIsTheCommand .init rfl, fun s => exec_init_of_reset, hseq, fun s t rest hp ht => ?_⟩
  cases (exec_init_of_reset hp).symm.trans ht
  exact hostIsHeldInInitWait _ rest rfl rfl

/-- Settles O20: `INIT_DONE` is enabled in `INIT_WAIT` exactly when the hardware is ready. -/
theorem initDoneEntersRun : Obligations.InitDoneEntersRun := by
  unfold Obligations.InitDoneEntersRun
  intro s rest hsch hp
  obtain ⟨henabled, hdisabled⟩ := eventActsExactlyWhenEnabled s .initDone rest hsch
  refine ⟨fun hready => henabled ⟨hp, hready⟩, fun hnot => hdisabled ?_⟩
  rintro ⟨-, hready⟩
  exact Bool.false_ne_true (hnot.symm.trans hready)

/-! ## The wait that never ends (R151, R162) -/

/-- `INIT` waits for hardware that is not ready, and no turn to come sets `HW_READY` or takes the power away. -/
structure NeverReady (s : State) : Prop where
  waiting : s.phase = .initWait
  notReady : s.hwReady = false
  neverSet : Turn.event (.hwrdySet true) ∉ s.schedule
  staysOn : Turn.powerOn ∉ s.schedule

/-- The condition says nothing of `BCNT_IN`, and no turn joins those to come. -/
theorem NeverReady.of_turns_used {s : State} (hs : NeverReady s) (k : Nat) (v : Word) :
    NeverReady { s with schedule := s.schedule.drop k, bcntIn := v } where
  waiting := hs.waiting
  notReady := hs.notReady
  neverSet := fun hmem => hs.neverSet (List.mem_of_mem_drop hmem)
  staysOn := fun hmem => hs.staysOn (List.mem_of_mem_drop hmem)

/-- During the wait an event moves at most `BCNT_IN`: `HWRDY_SET` can only repeat that the hardware is not ready, and
every other event is disabled (R31). -/
theorem takeEvent_of_not_ready {e : Event} {s : State} (hp : s.phase = .initWait) (hw : s.hwReady = false)
    (he : e ≠ .hwrdySet true) : ∃ v, takeEvent e s = { s with bcntIn := v } := by
  cases e with
  | bcntSet v => exact ⟨v, takeEvent_bcntSet v s⟩
  | hwrdySet b =>
    obtain rfl : b = s.hwReady := by simpa [hw] using he
    exact ⟨s.bcntIn, takeEvent_hwrdySet s.hwReady s⟩
  | _ => exact ⟨s.bcntIn, takeEvent_of_disabled (by simp [eventEnabled, hp, hw])⟩

/-- A step of the wait uses up the turn, be it the host's or an event's. -/
theorem step_of_neverReady {s : State} (hs : NeverReady s) :
    ∃ v, step s = .next { s with schedule := s.schedule.drop 1, bcntIn := v } := by
  obtain ⟨hp, hw, hset, hon⟩ := hs
  rcases step_cases s with ⟨hsch, hstep⟩ | ⟨rest, hsch, -⟩ | ⟨e, rest, hsch, hstep⟩ | ⟨rest, hsch, -⟩
  · exact ⟨s.bcntIn, by rw [hstep, hsch, List.drop_nil, ← hsch]⟩
  · exact ⟨s.bcntIn, by rw [hostIsHeldInInitWait s rest hp hsch, hsch, List.drop_one, List.tail_cons]⟩
  · have he : e ≠ .hwrdySet true := by
      rintro rfl
      exact hset (hsch ▸ List.mem_cons_self)
    obtain ⟨v, hv⟩ := takeEvent_of_not_ready (s := { s with schedule := rest }) hp hw he
    exact ⟨v, by rw [hstep, hv, hsch, List.drop_one, List.tail_cons]⟩
  · exact absurd (hsch ▸ List.mem_cons_self) hon

theorem runFor_of_neverReady {s : State} (hs : NeverReady s) (k : Nat) :
    ∃ v, runFor k s = .next { s with schedule := s.schedule.drop k, bcntIn := v } := by
  induction k with
  | zero => exact ⟨s.bcntIn, rfl⟩
  | succ k ih =>
    obtain ⟨v, hrun⟩ := ih
    obtain ⟨u, hstep⟩ := step_of_neverReady (hs.of_turns_used k v)
    rw [List.drop_drop] at hstep
    exact ⟨u, runFor_succ_of_run_next hrun hstep⟩

/-- Settles O21, by induction on the number of steps: each turn of the wait keeps the condition it waits under. -/
theorem neverReadyHardwareHangsForEver : Obligations.NeverReadyHardwareHangsForEver := by
  unfold Obligations.NeverReadyHardwareHangsForEver
  intro k s hp hw hset hon
  obtain ⟨v, hrun⟩ := runFor_of_neverReady ⟨hp, hw, hset, hon⟩ k
  exact ⟨_, hrun, rfl, rfl⟩

/-! ## `SERVICE` (R153) -/

/-- Settles O22: `SERVICE` passes the phase check and reports `OK`. -/
theorem serviceOnlyReportsOk : Obligations.ServiceOnlyReportsOk := by
  unfold Obligations.ServiceOnlyReportsOk
  refine ⟨decodeOfEncodeIsTheCommand .service rfl, fun s hp => ?_⟩
  rw [exec_service, whenRun_of_run hp, finish_eq]

end Sys2Proof.Machine
end

section
/-! PROOFS. Statuses and events (`60_exceptions.md`): the one status a command reports (R163), what events leave alone
(R166), and the order of events of different sources (R165). -/

namespace Sys2Proof.Machine

/-! ## The status of a command in `RUN` (R161, R163) -/

/-- The command arms a serial channel (R125, R131). -/
abbrev Enqueues (i : Instr) : Prop := i = .rxEnqueue ∨ ∃ n, i = .txEnqueue n

/-- The command arms a serial channel that is in use (R163's `BUSY`). -/
abbrev EnqueuesOnBusy (i : Instr) (s : State) : Prop :=
  (i = .rxEnqueue ∧ s.rxBusy = true) ∨ ((∃ n, i = .txEnqueue n) ∧ s.txBusy = true)

theorem exec_enqueue_misaligned {i : Instr} {s : State} (hp : s.phase = .run) (hi : Enqueues i)
    (ha : s.a0.toNat % 4 ≠ 0) : exec i s = .next { s with st := 4#32 } := by
  rcases hi with rfl | ⟨n, rfl⟩
  · exact exec_rxEnqueue_misaligned hp ha
  · exact exec_txEnqueue_misaligned hp ha n

theorem exec_enqueue_busy {i : Instr} {s : State} (hp : s.phase = .run) (ha : s.a0.toNat % 4 = 0)
    (hi : EnqueuesOnBusy i s) : exec i s = .next { s with r0 := 0#32, st := 1#32 } := by
  rcases hi with ⟨rfl, hb⟩ | ⟨⟨n, rfl⟩, hb⟩
  · exact exec_rxEnqueue_busy hp ha hb
  · exact exec_txEnqueue_busy hp ha hb n

theorem st_of_exec_enqueue_idle {i : Instr} {s t : State} (hp : s.phase = .run) (hi : Enqueues i)
    (ha : s.a0.toNat % 4 = 0) (hb : ¬ EnqueuesOnBusy i s) (ht : exec i s = .next t) : t.st = 0#32 := by
  rcases hi with rfl | ⟨n, rfl⟩
  · have hidle : s.rxBusy = false := Bool.eq_false_iff.mpr fun h => hb (.inl ⟨rfl, h⟩)
    cases (exec_rxEnqueue_idle hp ha hidle).symm.trans ht
    rfl
  · have hidle : s.txBusy = false := Bool.eq_false_iff.mpr fun h => hb (.inr ⟨⟨n, rfl⟩, h⟩)
    cases (exec_txEnqueue_idle hp ha hidle n).symm.trans ht
    rfl

/-- A well-formed command that passes the phase check and arms no channel always does what its rule says (R161). -/
theorem exec_eq_whenRun_finish {i : Instr} (hwf : i.wf = true) (hi : i ≠ .init) (hq : ¬ Enqueues i) :
    ∃ body : State → State, ∀ s, exec i s = whenRun s fun s => finish (body s) := by
  cases i with
  | init => exact absurd rfl hi
  | txEnqueue n => exact absurd (.inr ⟨n, rfl⟩) hq
  | rxEnqueue => exact absurd (.inl rfl) hq
  | service => exact ⟨_, exec_service⟩
  | tickCount => exact ⟨_, exec_tickCount⟩
  | tickHrcount => exact ⟨_, exec_tickHrcount⟩
  | tickDelta => exact ⟨_, exec_tickDelta⟩
  | tickCompare => exact ⟨_, exec_tickCompare⟩
  | getEvent => exact ⟨_, exec_getEvent⟩
  | setMode m =>
    obtain ⟨mode, hm⟩ := blinkModeOf_of_legal hwf
    exact ⟨_, exec_setMode hm⟩
  | getMode => exact ⟨_, exec_getMode⟩
  | blinkUpdate => exact ⟨_, exec_blinkUpdate⟩
  | txAbort => exact ⟨_, exec_txAbort⟩
  | txQuery => exact ⟨_, exec_txQuery⟩
  | rxAbort => exact ⟨_, exec_rxAbort⟩
  | rxQuery => exact ⟨_, exec_rxQuery⟩

/-- In `RUN` a command with no cause for `BADARG` or `BUSY` reports `OK` (R163). -/
theorem st_of_exec_accepted {i : Instr} {s t : State} (hwf : i.wf = true) (hi : i ≠ .init) (hp : s.phase = .run)
    (ha : ¬ (Enqueues i ∧ s.a0.toNat % 4 ≠ 0)) (hb : ¬ EnqueuesOnBusy i s) (ht : exec i s = .next t) :
    t.st = 0#32 := by
  by_cases hq : Enqueues i
  · exact st_of_exec_enqueue_idle hp hq (not_not.mp fun h => ha ⟨hq, h⟩) hb ht
  · obtain ⟨body, hbody⟩ := exec_eq_whenRun_finish hwf hi hq
    rw [hbody, whenRun_of_run hp] at ht
    cases ht
    rfl

/-- What a command reports, by its causes: the phase first, then the operand, then the channel (R163). -/
theorem exec_status_order {i : Instr} {s t : State} (hwf : i.wf = true) (ht : exec i s = .next t) :
    (i ≠ .init ∧ s.phase ≠ .run → t.st = 3#32) ∧
    (i = .init ∧ s.phase ≠ .reset → t.st = 3#32) ∧
    (i = .init ∧ s.phase = .reset → t.st = s.st) ∧
    (i ≠ .init ∧ s.phase = .run →
      (Enqueues i ∧ s.a0.toNat % 4 ≠ 0 → t.st = 4#32 ∧ t.r0 = s.r0) ∧
      (s.a0.toNat % 4 = 0 ∧ EnqueuesOnBusy i s → t.st = 1#32) ∧
      (¬ (Enqueues i ∧ s.a0.toNat % 4 ≠ 0) ∧ ¬ EnqueuesOnBusy i s → t.st = 0#32)) := by
  obtain ⟨hseq, hinitSeq⟩ := commandOutOfSequenceRaisesSeq
  refine ⟨?_, ?_, ?_, fun ⟨hi, hp⟩ => ⟨?_, ?_, ?_⟩⟩
  · rintro ⟨hi, hp⟩
    cases (hseq i s hwf hi hp).symm.trans ht
    rfl
  · rintro ⟨rfl, hp⟩
    cases (hinitSeq s hp).symm.trans ht
    rfl
  · rintro ⟨rfl, hp⟩
    cases (exec_init_of_reset hp).symm.trans ht
    rfl
  · rintro ⟨hq, ha⟩
    cases (exec_enqueue_misaligned hp hq ha).symm.trans ht
    exact ⟨rfl, rfl⟩
  · rintro ⟨ha, hb⟩
    cases (exec_enqueue_busy hp ha hb).symm.trans ht
    rfl
  · rintro ⟨ha, hb⟩
    exact st_of_exec_accepted hwf hi hp ha hb ht

/-- Settles O18: a reserved word is no command, so `ILLEGAL` comes before every cause that a command can have. -/
theorem statusesAreReportedInOrder : Obligations.StatusesAreReportedInOrder := by
  unfold Obligations.StatusesAreReportedInOrder
  rintro s w todo rest ⟨hsch, htodo, hhost⟩
  rw [step_of_hostStep hsch htodo hhost]
  cases hd : decode w with
  | error e =>
    have hres : reservedWord w := (reservedWord_iff_decode_error w).mpr ⟨e, hd⟩
    exact ⟨_, issueCommand_of_reserved hres _, fun i => ⟨fun _ => rfl, nofun⟩⟩
  | ok j =>
    obtain ⟨hwf, -⟩ := fields_of_decode hd
    obtain ⟨t, ht⟩ := exec_answers_next j { s with schedule := rest, hostTodo := todo }
    refine ⟨t, (issueCommand_of_decode hd _).trans ht, fun i => ⟨fun hres => ?_, fun hi => ?_⟩⟩
    · exact absurd hres (not_reservedWord_of_decode hd)
    · cases hi
      have horder := exec_status_order hwf ht
      exact horder

/-! ## What events leave alone (R166) -/

/-- Settles O54, event by event: an enabled one writes its own unit's fields, a disabled one none. -/
theorem eventsLeaveTheCommandStreamAlone : Obligations.EventsLeaveTheCommandStreamAlone := by
  unfold Obligations.EventsLeaveTheCommandStreamAlone
  intro e s
  by_cases hen : enabledByTable e s
  swap
  · simp [takeEvent_of_not_table hen]
  rw [takeEvent_of_table hen]
  cases e with
  | txStep => rcases txStep_cases s with ⟨-, h⟩ | ⟨-, h⟩ | ⟨-, b, h⟩ <;> simp [eventEffect, h]
  | initDone => exact ⟨rfl, rfl, rfl, rfl, rfl, rfl, rfl, rfl, rfl, absurd rfl⟩
  | tickAdv | edge | rxByte | rxDone | rxBreak | bcntSet | hwrdySet =>
    exact ⟨rfl, rfl, rfl, rfl, rfl, rfl, rfl, rfl, rfl, fun _ => ⟨rfl, rfl⟩⟩

/-! ## Events of different sources (R165) -/

/-- `s` with the fields that the events of agent `a` write taken from `t` (R31). `INIT_DONE` is no source. -/
def State.withUnit (s : State) (a : Agent) (t : State) : State := { s with
  timeNs := if a = .tick then t.timeNs else s.timeNs
  btn := if a = .edge then t.btn else s.btn
  evt := if a = .edge then t.evt else s.evt
  txBusy := if a = .serTx then t.txBusy else s.txBusy
  txFi := if a = .serTx then t.txFi else s.txFi
  txBi := if a = .serTx then t.txBi else s.txBi
  wire := if a = .serTx then t.wire else s.wire
  mem := if a = .serRx then t.mem else s.mem
  rxBusy := if a = .serRx then t.rxBusy else s.rxBusy
  rxCnt := if a = .serRx then t.rxCnt else s.rxCnt
  bcntIn := if a = .bcnt then t.bcntIn else s.bcntIn
  hwReady := if a = .hwrdy then t.hwReady else s.hwReady }

/-- No field is written by two agents. -/
theorem withUnit_comm {a b : Agent} (h : a ≠ b) (s t u : State) :
    (s.withUnit a t).withUnit b u = (s.withUnit b u).withUnit a t := by
  have swap (c : Agent) {α : Type} (x y z : α) :
      (if b = c then x else if a = c then y else z) = if a = c then y else if b = c then x else z :=
    ite_ite_comm (b = c) (a = c) x y fun hb ha => h (ha.trans hb.symm)
  simp only [State.withUnit, swap]

/-- An event writes only its agent's fields. -/
theorem withUnit_takeEvent {e : Event} (he : e.agent ≠ .initDone) (s : State) :
    s.withUnit e.agent (takeEvent e s) = takeEvent e s := by
  cases e with
  | tickAdv => rw [takeEvent_tickAdv]; rfl
  | edge lvl => rw [takeEvent_edge]; rfl
  | txStep =>
    obtain ⟨busy, fi, bi, w, h⟩ := takeEvent_txStep s
    rw [h]; rfl
  | rxByte b => rw [takeEvent_rxByte]; rfl
  | rxDone => rw [takeEvent_rxDone]; rfl
  | rxBreak => rw [takeEvent_rxBreak]; rfl
  | bcntSet v => rfl
  | hwrdySet v => rfl
  | initDone => exact absurd rfl he

/-- `TX_STEP` reads of other agents' fields only the bytes of memory it names (R49). -/
theorem txStep_withUnit {a : Agent} {s t : State} (ha : a ≠ .serTx)
    (hmem : ∀ x ∈ txReads s, readByte (s.withUnit a t).mem x = readByte s.mem x) :
    txStep (s.withUnit a t) = (txStep s).withUnit a t := by
  have haddr : fragAddr (s.withUnit a t) = fragAddr s := by simp only [fragAddr, State.withUnit, if_neg ha]
  have hfi : (s.withUnit a t).txFi = s.txFi := if_neg ha
  have hbi : (s.withUnit a t).txBi = s.txBi := if_neg ha
  by_cases hlast : s.txFi = s.txNfrag
  · rw [txStep_of_last hlast, txStep_of_last (hfi.trans hlast)]
    simp only [State.withUnit, if_neg ha]
  have hmore : (s.withUnit a t).txFi ≠ s.txNfrag := hfi.trans_ne hlast
  simp only [txReads, if_neg hlast, List.forall_mem_append] at hmem
  obtain ⟨⟨hbufBytes, hlenBytes⟩, hbyte⟩ := hmem
  have hlen : fragLen (s.withUnit a t) = fragLen s := by
    rw [fragLen, haddr, memReadHalf, readLE_congr hlenBytes]; rfl
  have hsrc : txByteAddr (s.withUnit a t) = txByteAddr s := by
    rw [txByteAddr, fragBuf, haddr, hbi, memRead_congr hbufBytes]; rfl
  by_cases hsent : (fragLen s).toNat ≤ s.txBi.toNat
  · rw [txStep_of_sent hlast hsent, txStep_of_sent hmore (by rwa [hlen, hbi])]
    simp only [State.withUnit, if_neg ha]
  · rw [if_neg hsent, List.forall_mem_singleton] at hbyte
    have hunsent := Nat.lt_of_not_le hsent
    rw [txStep_of_unsent hlast hunsent, txStep_of_unsent hmore (by rwa [hlen, hbi]), hsrc, hbyte]
    simp only [State.withUnit, if_neg ha]

/-- The bytes of memory that `e` reads in `s`, if it is an enabled `TX_STEP`, are the same in `u` (R49). -/
def SameBytesRead (e : Event) (s u : State) : Prop :=
  e = .txStep → enabledByTable .txStep s → ∀ x ∈ txReads s, readByte u.mem x = readByte s.mem x

/-- What another agent writes leaves an event the effect it has, as long as the bytes it reads are the same. -/
theorem takeEvent_withUnit {e : Event} {a : Agent} {s t : State} (he : e.agent ≠ .initDone) (ha : a ≠ e.agent)
    (hread : SameBytesRead e s (s.withUnit a t)) :
    takeEvent e (s.withUnit a t) = (takeEvent e s).withUnit a t := by
  cases e with
  | tickAdv => simp only [takeEvent_tickAdv, State.withUnit, if_neg (show a ≠ .tick from ha)]
  | edge lvl => simp only [takeEvent_edge, State.withUnit, if_neg (show a ≠ .edge from ha)]
  | txStep =>
    have hbusy : (s.withUnit a t).txBusy = s.txBusy := if_neg ha
    have hsame : enabledByTable .txStep (s.withUnit a t) ↔ enabledByTable .txStep s :=
      and_congr_right' (hbusy ▸ .rfl)
    by_cases hen : enabledByTable .txStep s
    · rw [takeEvent_of_table hen, takeEvent_of_table (hsame.mpr hen)]
      exact txStep_withUnit ha (hread rfl hen)
    · rw [takeEvent_of_not_table hen, takeEvent_of_not_table (mt hsame.mp hen)]
  | rxByte b => simp only [takeEvent_rxByte, State.withUnit, if_neg (show a ≠ .serRx from ha)]
  | rxDone => simp only [takeEvent_rxDone, State.withUnit, if_neg (show a ≠ .serRx from ha)]
  | rxBreak => simp only [takeEvent_rxBreak, State.withUnit, if_neg (show a ≠ .serRx from ha)]
  | bcntSet v => simp only [takeEvent_bcntSet, State.withUnit, if_neg (show a ≠ .bcnt from ha)]
  | hwrdySet v => simp only [takeEvent_hwrdySet, State.withUnit, if_neg (show a ≠ .hwrdy from ha)]
  | initDone => exact absurd rfl he

/-- Two turns in a row leave each agent's fields as its own event alone would. -/
theorem takeEvent_takeEvent {e e' : Event} {s : State} (he : e.agent ≠ .initDone) (he' : e'.agent ≠ .initDone)
    (hne : e'.agent ≠ e.agent) (hread : SameBytesRead e s (takeEvent e' s)) :
    takeEvent e (takeEvent e' s) = (s.withUnit e.agent (takeEvent e s)).withUnit e'.agent (takeEvent e' s) := by
  have hself := withUnit_takeEvent he' s
  calc takeEvent e (takeEvent e' s)
      = takeEvent e (s.withUnit e'.agent (takeEvent e' s)) := by rw [hself]
    _ = (takeEvent e s).withUnit e'.agent (takeEvent e' s) := takeEvent_withUnit he hne (by rwa [hself])
    _ = (s.withUnit e.agent (takeEvent e s)).withUnit e'.agent (takeEvent e' s) := by rw [withUnit_takeEvent he]

/-- An event that writes no byte a `TX_STEP` reads leaves those bytes the same. -/
theorem sameBytesRead_takeEvent {e e' : Event} {s : State} (hwf : Memory.wf s.mem)
    (hapart : e = .txStep → enabledByTable .txStep s →
      ∀ x ∈ txReads s, enabledByTable e' s → x ∉ eventWrites e' s) :
    SameBytesRead e s (takeEvent e' s) :=
  fun he hen x hx => eventsStoreOnlyWhereTheyName e' s hwf x (hapart he hen x hx)

/-- Settles O58: in either order each agent's fields are what its own event alone leaves. -/
theorem eventsOfDifferentSourcesCommute : Obligations.EventsOfDifferentSourcesCommute := by
  unfold Obligations.EventsOfDifferentSourcesCommute
  intro e e' s hwf hne he he' hapart
  have hfirst : SameBytesRead e s (takeEvent e' s) :=
    sameBytesRead_takeEvent hwf fun htx hen x hx => (hapart (by simp [htx]) hen x hx).2
  have hsecond : SameBytesRead e' s (takeEvent e s) :=
    sameBytesRead_takeEvent hwf fun htx hen x hx => (hapart (by simp [htx]) hen x hx).1
  rw [takeEvent_takeEvent he he' hne.symm hfirst, takeEvent_takeEvent he' he hne hsecond, withUnit_comm hne]

end Sys2Proof.Machine
end

section
/-! PROOFS. Power-on reset (`70_reset_and_hazards.md` R180): the reset state meets the invariant, and a power-on turn
reaches the reset column of R32 from any state. -/

namespace Sys2Proof.Machine

/-! ## The invariant at reset -/

/-- The reference column of R7's table meets R7's own constraints. -/
theorem reference_wf : Config.reference.wf := by
  simp only [Config.reference]
  decide

theorem memory_wf_nil : Memory.wf [] := ⟨List.Pairwise.nil, nofun⟩

theorem powerOn_unitsIdle (s : State) : (powerOn s).unitsIdle := ⟨rfl, rfl, rfl, rfl, rfl, rfl, rfl, rfl⟩

theorem reset_unitsIdle : State.reset.unitsIdle := powerOn_unitsIdle .reset

theorem reset_clockOk : State.reset.clockOk := ⟨reference_wf.1, dvd_zero _⟩

/-- Settles O16: nothing is in flight at reset, memory lists nothing, and the parameters are the reference ones. -/
theorem invariantHoldsAtReset : Obligations.InvariantHoldsAtReset := by
  unfold Obligations.InvariantHoldsAtReset
  exact ⟨reference_wf, memory_wf_nil, reset_clockOk, Nat.zero_le 4, nofun, nofun, fun _ => reset_unitsIdle⟩

/-! ## The power-on turn -/

/-- With the indicator off the pin is dark (R29). -/
theorem powerOn_ledOut (s : State) : (powerOn s).ledOut = false := rfl

/-- Settles O23: the turn is `powerOn`, which leaves the units idle and takes over the inputs and what is not the
block's. -/
theorem powerOnResetsTheBlock : Obligations.PowerOnResetsTheBlock := by
  unfold Obligations.PowerOnResetsTheBlock
  refine ⟨fun s rest hsch => ?_, rfl, rfl, reset_unitsIdle⟩
  have hstep := step_of_powerOn hsch
  obtain ⟨htime, hevt, hbtn, hmode, hled, htx, hrx, hwire⟩ := powerOn_unitsIdle { s with schedule := rest }
  exact ⟨_, hstep, rfl, rfl, htime, hevt, hbtn, hmode, hled, powerOn_ledOut _, htx, hrx, hwire,
    rfl, rfl, rfl, rfl, rfl, rfl, rfl⟩

end Sys2Proof.Machine
end
